-- ==== Sys2Proof/Word.lean ====
section
/-! DEFINITION. The word types of the block: state words, command words, response words, the state vector and its
positions (spec/00_scope.md R8, spec/10_state.md R20, R21, spec/30_encoding.md R81, R88). -/

namespace Sys2Proof

/-- A state word, a seed or a drawn value: 32 bits, unsigned (R8, R20). -/
abbrev Word := BitVec 32

/-- A command word `cmd[35:0]` (R81). -/
abbrev CmdWord := BitVec 36

/-- A response word `rsp[33:0]` (R88). -/
abbrev RspWord := BitVec 34

/-- The state vector: "exactly 624 unsigned 32-bit words", "never resized" (R20). -/
abbrev StateVec := Vector Word 624

/-- A location of the state array, 0 to 623 (R31). -/
abbrev Pos := Fin 624

/-- A value of the draw index, 0 to 624, both ends included (R21).  The register patterns 625 to 1023 do not exist in the
model (DEDUCED, log entry 9). -/
abbrev DrawIndex := Fin 625

end Sys2Proof
end

