-- ==== Sys2Proof/Syntax.lean ====
section
/-! DEFINITION. The syntax: the five commands (one constructor per row of spec/opcode_table.json), their formats, the three
letters of the filter's alphabet, and the lines of the assembler with its pseudo-instructions (spec/30_encoding.md R82 to
R84, R91 to R95). -/

namespace Sys2Proof

/-- The three command formats (R82). -/
inductive Format where
  /-- Operand in all of `imm`. -/
  | I
  /-- `imm` must be zero. -/
  | Z
  /-- Operand in `imm[0]`, the rest must be zero. -/
  | B
  deriving DecidableEq, Repr

/-- The commands (R84).  The operand types hold exactly the operand values of R83, so every term is well formed: a seed that
does not fit 32 bits and a bit that is neither 0 nor 1 cannot be written here (93_implementation_defined.md U5). -/
inductive Instr where
  /-- `SEED imm` (R110). -/
  | seed (s : Word)
  /-- `EXTRACT` (R111). -/
  | extract
  /-- `DBIT b` (R150); `false` is the character `'0'`, `true` is `'1'`. -/
  | dbit (b : Bool)
  /-- `DSEP` (R151). -/
  | dsep
  /-- `DEND` (R152). -/
  | dend
  deriving DecidableEq, Repr

/-- A letter of the filter's alphabet: a bit character or the line separator U+000A (R91, R154).  No other character can be
expressed (93_implementation_defined.md U4). -/
inductive Ch where
  | bit (b : Bool)
  | sep
  deriving DecidableEq, Repr

/-- A line of assembly (R92) or a pseudo-instruction (R93 to R95), with its operand as the programmer wrote it: an integer of
any size and sign, or a string of any characters.  `AsmLine.wf` says which are legal. -/
inductive AsmLine where
  | seed (n : Int)
  | extract
  | dbit (b : Int)
  | dsep
  | dend
  | draw (n : Int)
  | dword (w : Int)
  | dstr (s : List Char)
  deriving DecidableEq, Repr

end Sys2Proof
end

