-- ==== Sys2Proof/WellFormed.lean ====
section
/-! DEFINITION. Which assembly lines are legal (spec/30_encoding.md R92 to R95).  `Instr` itself needs no check: its operand
types admit exactly the legal operands (R83, R110 "every value 0 to 0xFFFFFFFF is legal"). -/

namespace Sys2Proof

/-- A 32-bit unsigned literal: "in `0..4294967295`; a larger or negative literal is an assembly error" (R92, R94). -/
def isWordLiteral (n : Int) : Bool := decide (0 ≤ n) && decide (n ≤ 4294967295)

/-- The characters `DSTR` admits: `'0'`, `'1'` and U+000A; "any other character in `s` is an assembly error" (R95). -/
def isFilterChar (c : Char) : Bool := c == '0' || c == '1' || c == '\n'

/-- The legality of an assembly line (R92 to R95). -/
def AsmLine.wf : AsmLine → Bool
  | .seed n => isWordLiteral n
  | .extract => true
  | .dbit b => decide (b = 0) || decide (b = 1)
  | .dsep => true
  | .dend => true
  | .draw n => decide (0 ≤ n)
  | .dword w => isWordLiteral w
  | .dstr s => s.all isFilterChar

end Sys2Proof
end

