-- ==== Sys2Proof/Decode.lean ====
section
/-! DEFINITION. The command encoding: fields, the opcode map, the total decoder with its named rejections, the encoder, and
the decoder on words numbered as spec/opcode_table.json numbers them (spec/30_encoding.md R81 to R86). -/

namespace Sys2Proof

/-- Why a word is illegal (R86). -/
inductive Illegal where
  /-- Case (a): `opc` is not assigned. -/
  | unassignedOpcode (opc : BitVec 4)
  /-- Cases (b) and (c): a must-be-zero operand bit is set. -/
  | operandNotZero
  deriving DecidableEq, Repr

/-- What decoding a word gives: "one of the five commands or `illegal`" (R86). -/
inductive Decoded where
  | command (i : Instr)
  | illegal (why : Illegal)
  deriving DecidableEq, Repr

/-- `opc = cmd[35:32]` (R81). -/
def opcOf (w : CmdWord) : BitVec 4 := w.extractLsb' 32 4

/-- `imm = cmd[31:0]` (R81); the seed of format `I`, "taken as it stands" (R83). -/
def immOf (w : CmdWord) : Word := w.extractLsb' 0 32

/-- `b = cmd[0]`, the bit of format `B` (R83). -/
def bitOf (w : CmdWord) : Bool := w.getLsbD 0

/-- `cmd[31:1]`, which format `B` requires to be zero (R82). -/
def upperImmOf (w : CmdWord) : BitVec 31 := w.extractLsb' 1 31

/-- The decoder: total on the 2^36 words, rejecting by name (R84, R86). -/
def decode (w : CmdWord) : Decoded :=
  if opcOf w = 0x1#4 then .command (.seed (immOf w))
  else if opcOf w = 0x2#4 then
    if immOf w = 0#32 then .command .extract else .illegal .operandNotZero
  else if opcOf w = 0x4#4 then
    if upperImmOf w = 0#31 then .command (.dbit (bitOf w)) else .illegal .operandNotZero
  else if opcOf w = 0x5#4 then
    if immOf w = 0#32 then .command .dsep else .illegal .operandNotZero
  else if opcOf w = 0x6#4 then
    if immOf w = 0#32 then .command .dend else .illegal .operandNotZero
  else .illegal (.unassignedOpcode (opcOf w))

/-- The encoder: the word `{opc, imm}` of the command's row (R82, R84). -/
def encode : Instr → CmdWord
  | .seed s => 0x1#4 ++ s
  | .extract => 0x2#4 ++ 0#32
  | .dbit b => 0x4#4 ++ (BitVec.ofBool b).setWidth 32
  | .dsep => 0x5#4 ++ 0#32
  | .dend => 0x6#4 ++ 0#32

/-- A row of the opcode map: "a word `w` selects the row iff `(w AND mask) == match`" (R84). -/
structure OpRow where
  mnemonic : String
  format : Format
  matchBits : CmdWord
  mask : CmdWord
  deriving DecidableEq, Repr

/-- The row of a command (R84). -/
def rowOf : Instr → OpRow
  | .seed _ => { mnemonic := "SEED", format := .I, matchBits := 0x100000000#36, mask := 0xF00000000#36 }
  | .extract => { mnemonic := "EXTRACT", format := .Z, matchBits := 0x200000000#36, mask := 0xFFFFFFFFF#36 }
  | .dbit _ => { mnemonic := "DBIT", format := .B, matchBits := 0x400000000#36, mask := 0xFFFFFFFFE#36 }
  | .dsep => { mnemonic := "DSEP", format := .Z, matchBits := 0x500000000#36, mask := 0xFFFFFFFFF#36 }
  | .dend => { mnemonic := "DEND", format := .Z, matchBits := 0x600000000#36, mask := 0xFFFFFFFFF#36 }

/-- The opcode map, in the table's order (R84). -/
def opTable : List OpRow :=
  [rowOf (.seed 0), rowOf .extract, rowOf (.dbit false), rowOf .dsep, rowOf .dend]

/-- `w` selects the row (R84). -/
abbrev OpRow.Selects (r : OpRow) (w : CmdWord) : Prop := w &&& r.mask = r.matchBits

/-- The command word of a table word of `nbits` bits: its low `nbits` bits, the bits above zero.  A value with a bit above bit
35 is no command word: the channel `cmd` has 36 wires (R80; DESIGN CHOICE, log entry 13). -/
def cmdOfTableWord (nbits w : Nat) : Option CmdWord :=
  if w % 2 ^ nbits < 2 ^ 36 then some (BitVec.ofNat 36 (w % 2 ^ nbits)) else none

/-- The instruction the decoder reads from a table word. -/
def decodeTableWord (nbits w : Nat) : Option Instr :=
  match cmdOfTableWord nbits w with
  | some c =>
    match decode c with
    | .command i => some i
    | .illegal _ => none
  | none => none

end Sys2Proof
end

