-- ==== Sys2Proof/Config.lean ====
section
/-! DEFINITION. What an implementation fixes (the two parameters of spec/00_scope.md R6) and the values the spec leaves
open, as constants without a body. Which configuration the machine of this package runs is `Machine.hardware`
(Sys2Proof/Machine/Params.lean). -/

namespace Sys2Proof

/-- The two named configuration parameters (R6): fixed before a run, not state, changed by no command (R7). -/
structure Config where
  /-- `A_COEFF`, the twist coefficient (R6, R112; 90_conflicts.md C2). -/
  aCoeff : Word
  /-- `TEMPER_S`, the left shift of tempering step 2 (R6, R113; 90_conflicts.md C1). -/
  temperS : Nat
  deriving DecidableEq, Repr

/-- The DOC configuration, "the configuration this spec takes as the hardware's" (00_scope.md, glossary). -/
def Config.doc : Config := { aCoeff := 0x990FB0DF#32, temperS := 7 }

/-- The DOC-S11 configuration: the repository's tempering shift as the source's section 9 reports it. -/
def Config.docS11 : Config := { aCoeff := 0x990FB0DF#32, temperS := 11 }

/-- The PUB configuration: the published twist coefficient. -/
def Config.pub : Config := { aCoeff := 0x9908B0DF#32, temperS := 7 }

/-- The PUB-S11 configuration. -/
def Config.pubS11 : Config := { aCoeff := 0x9908B0DF#32, temperS := 11 }

/-- The admitted values of R6. -/
abbrev Config.Admitted (cfg : Config) : Prop :=
  (cfg.aCoeff = 0x990FB0DF#32 ∨ cfg.aCoeff = 0x9908B0DF#32) ∧ (cfg.temperS = 7 ∨ cfg.temperS = 11)

/-- FREE VALUE (DESIGN CHOICE, log entry 1): what word `pos` of the state vector holds after reset number `epoch`. R34: "hold
no specified value"; nothing in Lean can evaluate it, and no command reads it (R201). -/
opaque Config.resetWord (epoch pos : Nat) : Word

/-- FREE VALUE (DESIGN CHOICE, log entry 8): whether the symbol of the command that reset number `epoch` abandons had already
been transferred when `rst` was asserted. R230 says only that no FURTHER symbol is produced. -/
opaque Config.symbolSentBeforeReset (epoch : Nat) : Bool

end Sys2Proof
end

