-- ==== Sys2Proof/Machine/State.lean ====
section
/-! DEFINITION. The state of the block as plain data, what it consumes and produces, and its state after reset
(spec/10_state.md R20 to R36, spec/30_encoding.md R80, R88, R90). -/

namespace Sys2Proof.Machine

/-- The pair latch `pend` (R24). -/
inductive Pend where
  /-- No bit of the current pair has arrived. -/
  | none
  /-- The first bit has arrived and was 0. -/
  | p0
  /-- The first bit has arrived and was 1. -/
  | p1
  deriving DecidableEq, Repr

/-- The status of a response (R88).  The code `11` is never produced and has no constructor. -/
inductive Status where
  | ok
  | errUnseeded
  | errIllegal
  deriving DecidableEq, Repr

/-- A response (R88). -/
structure Response where
  status : Status
  data : Word
  deriving DecidableEq, Repr

/-- An output symbol (R90).  The code `11` is never produced and has no constructor. -/
inductive Symbol where
  | s0
  | s1
  | sep
  deriving DecidableEq, Repr

/-- A transfer on one of the block's two output channels (R80). -/
inductive Transfer where
  /-- A symbol on `dout`. -/
  | dout (y : Symbol)
  /-- A response on `rsp`. -/
  | rsp (r : Response)
  deriving DecidableEq, Repr

/-- One move of the host at the block's ports (R80, R216, R230). -/
inductive HostMove where
  /-- No command offered (`cmd_valid = 0`), `rst` not asserted (R87, R240). -/
  | silent
  /-- A command word offered while `cmd_ready = 1`: it is accepted (R80). -/
  | offer (w : CmdWord)
  /-- `rst` asserted between two commands, and released; a word offered meanwhile is not accepted, `cmd_ready` being 0
  (R230). -/
  | rst (offered : Option CmdWord)
  /-- `w` offered and accepted, and `rst` asserted while it is being performed (R230). -/
  | rstDuring (w : CmdWord)
  deriving DecidableEq, Repr

/-- The state. `pend`, `seeded`, `index` and `words` are the block's (R20 to R24; nothing else persists, R26).
`transfers` and `inputs` are the run's observation and input, held as data (R13, R32; DESIGN CHOICE, log entries 6 and 7).
`twists` and `resets` are the model's own. The vector stands last so that two states are told apart by their small fields first. -/
structure State where
  /-- The model's own: the ghost count of twists that R26 and R125 allow; no meaning reads it (DESIGN CHOICE, log entry 10). -/
  twists : Nat
  /-- The model's own: how many resets there were; the argument of the free values of Config (DESIGN CHOICE, log entries 1, 8,
  10). -/
  resets : Nat
  /-- What the block has transferred so far, on both channels: a transfer happened no later than those after it in the list
  (R13, R80; log entry 12). -/
  transfers : List Transfer
  /-- The host's moves still to come, the next one first. -/
  inputs : List HostMove
  /-- `pend` (R24). -/
  pend : Pend
  /-- `seeded` (R23). -/
  seeded : Bool
  /-- The draw index (R21). -/
  index : DrawIndex
  /-- `state[0..623]` (R20). -/
  words : StateVec
  deriving DecidableEq, Repr

/-- Why the machine stops with a fault: never. Every accepted command is answered (R11, R203, R245), the two errors are answers
(R206, R207; DESIGN CHOICE, log entry 2), and no access can be out of range (R50), so no constructor is needed and no step of
the machine can fault. Safe: the model stops nowhere. -/
inductive Fault where
  deriving DecidableEq, Repr

/-- Why the machine refuses an instruction. -/
inductive Refusal where
  /-- An instruction that has no meaning yet.  Raised by no arm of `exec`: all five commands have their meaning.  Safe. -/
  | notModelled (mnemonic : String)
  deriving DecidableEq, Repr

/-- The 624 words after reset number `epoch`: free values (R34; DESIGN CHOICE, log entry 1). -/
@[irreducible] def freshWords (epoch : Nat) : StateVec := Vector.ofFn fun i => Config.resetWord epoch i.val

/-- The machine right after reset (R34 to R36): words unspecified, `index = 624`, `seeded = 0`, `pend = NONE`, no response and
no symbol, and no move of the host yet. -/
def State.reset : State where
  words := freshWords 0
  index := Fin.last 624
  seeded := false
  pend := .none
  inputs := []
  transfers := []
  resets := 0
  twists := 0

end Sys2Proof.Machine
end

