-- ==== Sys2Proof/Machine/Flags.lean ====
section
/-! DEFINITION. The one-bit conditions of the block (spec/10_state.md R29): `seeded` is stored, the others are predicates.
There are no arithmetic flags. -/

namespace Sys2Proof.Machine

/-- *Exhausted*: `index == 624` (R21, R29). -/
def exhausted (s : State) : Bool := s.index.val == 624

/-- *Odd*: `x[0] == 1` (R8, R29). -/
def isOdd (x : Word) : Bool := x.getLsbD 0

/-- The first bit of the current pair, if it has arrived: `pend != NONE` (R24, R29). -/
def Pend.first : Pend → Option Bool
  | .none => Option.none
  | .p0 => some false
  | .p1 => some true

/-- The latch that remembers a first bit (R24, R150). -/
def Pend.latch (b : Bool) : Pend := if b then .p1 else .p0

end Sys2Proof.Machine
end

