-- ==== Sys2Proof/Machine/Ops.lean ====
section
/-! DEFINITION. The named operations over the state array, the control state and the two output streams, error entry, and
reset (spec/00_scope.md R10, spec/60_exceptions.md R206, R207, spec/70_reset_and_hazards.md R230). -/

namespace Sys2Proof.Machine

/-- A read of `state[i]`: a whole word, without side effect (R10, R54, R55). -/
def readWord (v : StateVec) (i : Pos) : Word := v[i]

/-- `state[i] <- w`: a whole word (R10, R54). -/
def writeWord (v : StateVec) (i : Pos) (w : Word) : StateVec := v.set i.val w i.isLt

/-- The host's moves still to come become `ms`. -/
def State.setInputs (ms : List HostMove) (s : State) : State := { s with inputs := ms }

/-- `index <- n` (R10). -/
def State.setIndex (n : DrawIndex) (s : State) : State := { s with index := n }

/-- `pend <- p` (R10). -/
def State.setPend (p : Pend) (s : State) : State := { s with pend := p }

/-- `respond(status, data)`: the command's one response (R10, R88). -/
def State.respond (st : Status) (d : Word) (s : State) : State :=
  { s with transfers := s.transfers ++ [.rsp { status := st, data := d }] }

/-- `emit(sym)`: one symbol appended to `dout` (R10, R90). -/
def State.emit (y : Symbol) (s : State) : State := { s with transfers := s.transfers ++ [.dout y] }

/-- Error entry, the one shared operation of the two errors: the command ends at once, its response carries the status and
data 0, and nothing else changes: nothing is saved, no mode changes, control goes nowhere (R10, R201, R202, R206).  There is no
return from an error "because there is nothing to return from": the next command is taken normally (R207). -/
def State.raise (st : Status) (s : State) : State := s.respond st 0#32

/-- What reset does to the block: words unspecified (free values of the new epoch), `index`, `seeded` and `pend` at their reset
values, no response and no symbol (R34, R35, R230). What the host has already received stays received (DESIGN CHOICE, log entry
7). -/
def State.hardReset (s : State) : State :=
  { s with
    words := freshWords (s.resets + 1)
    index := Fin.last 624
    seeded := false
    pend := .none
    resets := s.resets + 1 }

end Sys2Proof.Machine
end

