-- ==== Sys2Proof/Machine/Debiaser.lean ====
section
/-! DEFINITION. The VN unit: `DBIT`, `DSEP`, `DEND` (spec/41_debiaser.md R150 to R152). -/

namespace Sys2Proof.Machine

/-- The symbol of a bit: `S0` for 0, `S1` for 1 (R90, R150). -/
def bitSymbol (a : Bool) : Symbol := if a then .s1 else .s0

/-- What `DBIT b` emits under the latch `p`: the first bit of a pair whose bits differ, else nothing (R150). -/
def pairSymbol (p : Pend) (b : Bool) : Option Symbol :=
  match p.first with
  | Option.none => Option.none
  | some a => if a ≠ b then some (bitSymbol a) else Option.none

/-- What `DBIT b` leaves in the latch `p` (R150). -/
def pairLatch (p : Pend) (b : Bool) : Pend :=
  match p.first with
  | Option.none => Pend.latch b
  | some _ => .none

/-- `emit(sym)` if there is a symbol to emit. -/
def State.emitOpt (y : Option Symbol) (s : State) : State :=
  match y with
  | Option.none => s
  | some y => s.emit y

/-- `DBIT b` (R150). -/
def dbit (b : Bool) (s : State) : State :=
  State.respond .ok 0#32 ((s.emitOpt (pairSymbol s.pend b)).setPend (pairLatch s.pend b))

/-- `DSEP` (R151). -/
def dsep (s : State) : State := State.respond .ok 0#32 ((s.setPend .none).emit .sep)

/-- `DEND` (R152). -/
def dend (s : State) : State := State.respond .ok 0#32 (s.setPend .none)

/-- The meaning of `DBIT` (R150). -/
def execDbit (b : Bool) (s : State) : Host.Outcome State Fault Refusal := .next (dbit b s)

/-- The meaning of `DSEP` (R151). -/
def execDsep (s : State) : Host.Outcome State Fault Refusal := .next (dsep s)

/-- The meaning of `DEND` (R152). -/
def execDend (s : State) : Host.Outcome State Fault Refusal := .next (dend s)

end Sys2Proof.Machine
end

