-- ==== Sys2Proof/Machine/Arith.lean ====
section
/-! DEFINITION. The operators of spec/00_scope.md R9 that are not plain bit-vector operators: `low32` on exact integers and the
lossless left shift under a mask. -/

namespace Sys2Proof.Machine

/-- `low32(v) = v mod 2^32`, of an exact integer (R9). -/
def low32 (v : Nat) : Word := BitVec.ofNat 32 v

/-- `(y << k) AND m` with the shift "computed without loss" (R9, R113), its result below 2^32 because `m` is (R117). -/
def shlAnd (y : Word) (k : Nat) (m : Word) : Word := low32 ((y.toNat <<< k) &&& m.toNat)

end Sys2Proof.Machine
end

