-- ==== Sys2Proof/Machine/Params.lean ====
section
/-! DEFINITION. The constants of spec/00_scope.md R5, hardwired (R7, spec/10_state.md R25), and the configuration of this
hardware. -/

namespace Sys2Proof.Machine

/-- The configuration this machine runs: DOC (R6, glossary; UNVERIFIED, log entries 3 and 4). -/
def hardware : Config := Config.doc

/-- `N`: the number of state words. -/
def wordCount : Nat := 624

/-- `M`: the twist offset. -/
def twistOffset : Nat := 397

/-- `R`: the separation point. -/
def separationPoint : Nat := 31

/-- `LOWER_MASK`: the low `R` bits set (R22; PRESUMED by the spec, log entry 5). -/
def lowerMask : Word := low32 (2 ^ separationPoint - 1)

/-- `UPPER_MASK = NOT_32(LOWER_MASK)` (R22; PRESUMED by the spec, log entry 5). -/
def upperMask : Word := ~~~lowerMask

/-- `F`: the seeding multiplier, 0x6C078965. -/
def seedMultiplier : Nat := 1812433253

/-- `SEED_SHIFT`. -/
def seedShift : Nat := 30

/-- `U`: the right shift of tempering step 1. -/
def temperU : Nat := 11

/-- `B_MASK`: the mask of tempering step 2. -/
def temperB : Word := 0x9D2C5680#32

/-- `T`: the left shift of tempering step 3. -/
def temperT : Nat := 15

/-- `C_MASK`: the mask of tempering step 3. -/
def temperC : Word := 0xEFC60000#32

/-- `L`: the right shift of tempering step 4. -/
def temperL : Nat := 18

end Sys2Proof.Machine
end

