-- ==== Sys2Proof/Machine/Operands.lean ====
section
/-! DEFINITION. The operand forms of the block: the index forms by which its operations reach the state array
(spec/20_memory.md R50, R52).  The operands a command carries are read by the decoder (spec/30_encoding.md R83,
Sys2Proof/Decode.lean). -/

namespace Sys2Proof.Machine

/-- The position of a loop counter `n`, which is below 624 in every use (R50). -/
def posOf (n : Nat) : Pos := ⟨n % 624, Nat.mod_lt n (by decide)⟩

/-- `(i+1) mod 624` (R50, R52). -/
def nextPos (i : Pos) : Pos := posOf (i.val + 1)

/-- `(i+397) mod 624` (R50, R52). -/
def offsetPos (i : Pos) : Pos := posOf (i.val + twistOffset)

end Sys2Proof.Machine
end

