-- ==== Sys2Proof/Machine/MtCore.lean ====
section
/-! DEFINITION. The MT unit: `SEED`, `EXTRACT`, and the internal operations `TWIST` and `TEMPER` (spec/40_mt_core.md R110 to
R113), each as the rule's pseudocode writes it, for any configuration; `execSeed` and `execExtract` are those of this
hardware.  The two whole-vector operations are irreducible so that no comparison of states unrolls their 624 iterations; the
laws in Sys2Proof/Laws/MtUnit.lean say what they do. -/

namespace Sys2Proof.Machine

/-- `low32(F * (p XOR (p >> 30)) + i)`: exact product and sum, then the low 32 bits (R110). -/
def seedWord (p : Word) (i : Nat) : Word :=
  low32 (seedMultiplier * (p ^^^ (p >>> seedShift)).toNat + i)

/-- Iteration `i = n + 1` of the seeding loop: reads `state[i-1]`, writes `state[i]` (R110). -/
def seedStep (v : StateVec) (n : Nat) : StateVec :=
  writeWord v (posOf (n + 1)) (seedWord (readWord v (posOf n)) (n + 1))

/-- The first `n` iterations of the seeding loop, in ascending order (R59, R110). -/
def seedLoop (v : StateVec) : Nat → StateVec
  | 0 => v
  | n + 1 => seedStep (seedLoop v n) n

/-- The state vector `SEED s` leaves in place of `v`: `state[0] <- s`, then `for i = 1 to 623` (R110). -/
@[irreducible] def seedVec (v : StateVec) (s : Word) : StateVec := seedLoop (writeWord v (posOf 0) s) 623

/-- `SEED s` (R110). -/
def seed (s : Word) (st : State) : State :=
  State.respond .ok 0#32
    { st with words := seedVec st.words s, index := Fin.last 624, seeded := true }

/-- `(u AND UPPER_MASK) OR (v AND LOWER_MASK)` (R112, R122). -/
def mix (u v : Word) : Word := (u &&& upperMask) ||| (v &&& lowerMask)

/-- `xA`: `x >> 1`, with `A_COEFF` XORed in if `x` is odd (R112, R122). -/
def mag (cfg : Config) (x : Word) : Word :=
  if isOdd x then (x >>> 1) ^^^ cfg.aCoeff else x >>> 1

/-- Iteration `i` of the twist: three reads, then the one write (R59, R112). -/
def twistStep (cfg : Config) (v : StateVec) (i : Pos) : StateVec :=
  writeWord v i
    (readWord v (offsetPos i) ^^^ mag cfg (mix (readWord v i) (readWord v (nextPos i))))

/-- The first `n` iterations of the twist, in ascending order and in place (R59, R112). -/
def twistLoop (cfg : Config) (v : StateVec) : Nat → StateVec
  | 0 => v
  | n + 1 => twistStep cfg (twistLoop cfg v n) (posOf n)

/-- The state vector after the twist: `for i = 0 to 623` (R112). -/
@[irreducible] def twistVec (cfg : Config) (v : StateVec) : StateVec := twistLoop cfg v 624

/-- `TWIST()`: all 624 words and `index <- 0` (R112); the ghost count goes up by one (R125). -/
def twist (cfg : Config) (s : State) : State :=
  { s with words := twistVec cfg s.words, index := 0, twists := s.twists + 1 }

/-- Tempering step 1. -/
def temper1 (y : Word) : Word := y ^^^ (y >>> temperU)

/-- Tempering step 2. -/
def temper2 (cfg : Config) (y : Word) : Word := y ^^^ shlAnd y cfg.temperS temperB

/-- Tempering step 3. -/
def temper3 (y : Word) : Word := y ^^^ shlAnd y temperT temperC

/-- Tempering step 4. -/
def temper4 (y : Word) : Word := y ^^^ (y >>> temperL)

/-- `TEMPER(y)`: the four steps in order (R113).  The final `low32` is the identity on a word (R117). -/
def temper (cfg : Config) (y : Word) : Word := temper4 (temper3 (temper2 cfg (temper1 y)))

/-- The draw at position `i`, `index` being `i`: read, temper, advance, respond (R111). -/
def drawAt (cfg : Config) (i : Pos) (s : State) : State :=
  State.respond .ok (temper cfg (readWord s.words i)) (s.setIndex i.succ)

/-- `EXTRACT` (R111): refused while unseeded (R201); else the twist first if `index == 624`, which leaves `index = 0`; then the
draw at `index`. -/
def extract (cfg : Config) (s : State) : State :=
  if s.seeded = false then s.raise .errUnseeded
  else if h : s.index.val = 624 then drawAt cfg 0 (twist cfg s)
  else drawAt cfg ⟨s.index.val, by have := s.index.isLt; omega⟩ s

/-- The meaning of `SEED` (R110). -/
def execSeed (s : Word) (st : State) : Host.Outcome State Fault Refusal := .next (seed s st)

/-- The meaning of `EXTRACT` under any configuration (R6, R111). -/
def execExtractIn (cfg : Config) (s : State) : Host.Outcome State Fault Refusal := .next (extract cfg s)

/-- The meaning of `EXTRACT` on this hardware (R111). -/
def execExtract (s : State) : Host.Outcome State Fault Refusal := execExtractIn hardware s

end Sys2Proof.Machine
end

