-- ==== Sys2Proof/Machine/Dispatch.lean ====
section
/-! DEFINITION. What each command does: one arm per row of spec/opcode_table.json. -/

namespace Sys2Proof.Machine

def exec (i : Instr) (s : State) : Host.Outcome State Fault Refusal :=
  match i with
  | .seed imm => Sys2Proof.Machine.execSeed imm s
  | .extract => Sys2Proof.Machine.execExtract s
  | .dbit b => Sys2Proof.Machine.execDbit b s
  | .dsep => Sys2Proof.Machine.execDsep s
  | .dend => Sys2Proof.Machine.execDend s

end Sys2Proof.Machine
end

