-- ==== Sys2Proof/Machine/Accept.lean ====
section
/-! DEFINITION. What one move of the host makes the block do: accepting a command word, being idle, and reset
(spec/30_encoding.md R80, spec/60_exceptions.md R202, R204, spec/70_reset_and_hazards.md R230, R240).  The performance of a
command is an argument, so that the machine of every configuration (spec/00_scope.md R6) takes the same moves. -/

namespace Sys2Proof.Machine

/-- How one performance answers a state: a command on a machine, a word accepted, a move taken. -/
abbrev Performs (α : Type) : Type := α → State → Host.Outcome State Fault Refusal

/-- Accepting a command word, on a machine that performs commands by `run`: decoding comes first, before any state is read
(R204); an illegal word is answered with `ERR_ILLEGAL` (R202), a legal one is performed. -/
def acceptBy (run : Performs Instr) : Performs CmdWord := fun w s =>
  match decode w with
  | .command i => run i s
  | .illegal _ => .next (s.raise .errIllegal)

/-- Accepting a command word on this hardware. -/
def accept : Performs CmdWord := acceptBy exec

/-- The symbol a command emits when it is performed in `s` (R89, column `dout`). -/
def emission (i : Instr) (s : State) : Option Symbol :=
  match i with
  | .seed _ => Option.none
  | .extract => Option.none
  | .dbit b => pairSymbol s.pend b
  | .dsep => some .sep
  | .dend => Option.none

/-- Reset while the word `w` is being performed: no response, "no further symbol" (whether the command's own symbol had been
transferred is a free value: DESIGN CHOICE, log entry 8), then the reset state (R230). -/
def abandon (w : CmdWord) (s : State) : State :=
  match decode w with
  | .command i =>
    (s.emitOpt (if Config.symbolSentBeforeReset s.resets then emission i s else Option.none)).hardReset
  | .illegal _ => s.hardReset

/-- One move of the host, on a machine that performs commands by `run`. -/
def takeMoveBy (run : Performs Instr) : Performs HostMove := fun m s =>
  match m with
  | .silent => .next s
  | .offer w => acceptBy run w s
  | .rst _ => .next s.hardReset
  | .rstDuring w => .next (abandon w s)

/-- One step on a machine that performs commands by `run`: the host's next move. With no move to come the host does nothing,
and so does the block (R240). -/
def stepBy (run : Performs Instr) (s : State) : Host.Outcome State Fault Refusal :=
  match s.inputs with
  | [] => .next s
  | m :: rest => takeMoveBy run m (s.setInputs rest)

/-- The command transfer of a move: the word for which `cmd_valid` and `cmd_ready` are both 1.  While `rst` is asserted
`cmd_ready` is 0 (R80, R230). -/
def HostMove.transferred : HostMove → Option CmdWord
  | .silent => Option.none
  | .offer w => some w
  | .rst _ => Option.none
  | .rstDuring w => some w

/-- Whether a move asserts `rst`. -/
def HostMove.resets : HostMove → Bool
  | .silent => false
  | .offer _ => false
  | .rst _ => true
  | .rstDuring _ => true

/-- `s` with the command word of a table word offered next, if there is one (DESIGN CHOICE, log entry 13). -/
def offerTableWord (s : State) (nbits w : Nat) : State :=
  match cmdOfTableWord nbits w with
  | some c => s.setInputs (.offer c :: s.inputs)
  | Option.none => s

end Sys2Proof.Machine
end

