-- ==== Sys2Proof/Machine/Step.lean ====
section
/-! DEFINITION. One step of this hardware: the host's next move, or nothing while the host makes no move (spec/00_scope.md R12,
spec/70_reset_and_hazards.md R240; DESIGN CHOICE, log entry 6). -/

namespace Sys2Proof.Machine

/-- One step of this hardware. -/
def step (s : State) : Host.Outcome State Fault Refusal := stepBy exec s

/-- `s` with the instruction offered as the host's next move. -/
def State.withFetchWord (s : State) (nbits w : Nat) : State := offerTableWord s nbits w

end Sys2Proof.Machine
end

