-- ==== Sys2Proof/Machine/Debias.lean ====
section
/-! DEFINITION. The reference function `debias` on whole strings, in the five steps of spec/41_debiaser.md R153, its alphabet at
string level (R154), and the command sequence `enc(s)` of R155. -/

namespace Sys2Proof.Machine

/-- Step (1): split at every separator; `k` separators give `k + 1` lines, a line may be empty (R153). -/
def splitLines : List Ch → List (List Bool)
  | [] => [[]]
  | .sep :: r => [] :: splitLines r
  | .bit b :: r =>
    match splitLines r with
    | [] => [[b]]
    | l :: ls => (b :: l) :: ls

/-- Step (2): the non-overlapping pairs, left to right; an unpaired last character is dropped (R153). -/
def pairsOf : List Bool → List (Bool × Bool)
  | a :: b :: r => (a, b) :: pairsOf r
  | [_] => []
  | [] => []

/-- Step (3): `('0','1')` to `"0"`, `('1','0')` to `"1"`, equal pairs to nothing (R153). -/
def mapPair : Bool × Bool → List Bool
  | (false, true) => [false]
  | (true, false) => [true]
  | (false, false) => []
  | (true, true) => []

/-- Step (4): the output of one line (R153). -/
def debiasLine (l : List Bool) : List Bool := (pairsOf l).flatMap mapPair

/-- Step (5): lines joined with one separator between consecutive ones (R153). -/
def joinLines : List (List Bool) → List Ch
  | [] => []
  | [l] => l.map .bit
  | l :: m :: ls => l.map .bit ++ .sep :: joinLines (m :: ls)

/-- `debias(s)` (R153). -/
def debias (s : List Ch) : List Ch := joinLines ((splitLines s).map debiasLine)

/-- The character of a letter: `'0'`, `'1'`, U+000A (R154). -/
def charOf : Ch → Char
  | .bit false => '0'
  | .bit true => '1'
  | .sep => '\n'

/-- The letter of a character; no other character has one (R91, R154). -/
def chOf (c : Char) : Option Ch :=
  if c = '0' then some (.bit false)
  else if c = '1' then some (.bit true)
  else if c = '\n' then some .sep
  else Option.none

/-- An output symbol read as a character (R90). -/
def symbolCh : Symbol → Ch
  | .s0 => .bit false
  | .s1 => .bit true
  | .sep => .sep

/-- The command of one input character (R91, R95). -/
def chInstr : Ch → Instr
  | .bit b => .dbit b
  | .sep => .dsep

/-- `enc(s)`: one command per character, then one `DEND` (R95, R155). -/
def enc (s : List Ch) : List Instr := s.map chInstr ++ [.dend]

end Sys2Proof.Machine
end

