-- ==== Sys2Proof/Machine/AnyConfig.lean ====
section
/-! DEFINITION. The machine of any configuration: "The model takes both as arguments of its configuration; a claim may fix them or
quantify over them" (spec/00_scope.md R6).  `exec`, `accept` and `step` are these at `hardware`. -/

namespace Sys2Proof.Machine

/-- One command under a configuration: only `EXTRACT` depends on it (R6, R112, R113). -/
def execIn (cfg : Config) : Performs Instr := fun i s =>
  match i with
  | .seed imm => execSeed imm s
  | .extract => execExtractIn cfg s
  | .dbit b => execDbit b s
  | .dsep => execDsep s
  | .dend => execDend s

/-- Accepting a command word under a configuration (R202, R204). -/
def acceptIn (cfg : Config) : Performs CmdWord := acceptBy (execIn cfg)

/-- One step under a configuration (R12, R240). -/
def stepIn (cfg : Config) (s : State) : Host.Outcome State Fault Refusal := stepBy (execIn cfg) s

/-- The machine of a configuration, behind the host's interface. -/
def machineIn (cfg : Config) : Host.Core :=
  { State := State, Fault := Fault, Refusal := Refusal, step := stepIn cfg, reset := State.reset }

end Sys2Proof.Machine
end

