-- ==== Sys2Proof/Machine/Ports.lean ====
section
/-! DEFINITION. The two output channels, each by itself, and the bit patterns of what crosses the block's boundary and of the
latch: response words and output symbols
(spec/30_encoding.md R88, R90), the hardware encoding of `pend` (spec/10_state.md R24), and the decoders that treat the patterns
never produced as impossible (93_implementation_defined.md U3). -/

namespace Sys2Proof.Machine

/-- The response a transfer carries, if it is one on `rsp` (R80). -/
def Transfer.response : Transfer → Option Response
  | .dout _ => Option.none
  | .rsp r => some r

/-- The symbol a transfer carries, if it is one on `dout` (R80). -/
def Transfer.symbol : Transfer → Option Symbol
  | .dout y => some y
  | .rsp _ => Option.none

/-- The sequence of responses, oldest first (R13, R32). -/
def State.rsps (s : State) : List Response := s.transfers.filterMap Transfer.response

/-- The sequence of emitted symbols, oldest first (R13, R32). -/
def State.dout (s : State) : List Symbol := s.transfers.filterMap Transfer.symbol

/-- `rsp[33:32]` (R88). -/
def Status.bits : Status → BitVec 2
  | .ok => 0b00#2
  | .errUnseeded => 0b01#2
  | .errIllegal => 0b10#2

/-- The response word `rsp[33:0]` (R88). -/
def Response.bits (r : Response) : RspWord := r.status.bits ++ r.data

/-- The status of a code; `11` has none (R88, U3). -/
def statusOf (b : BitVec 2) : Option Status :=
  if b = 0b00#2 then some .ok
  else if b = 0b01#2 then some .errUnseeded
  else if b = 0b10#2 then some .errIllegal
  else Option.none

/-- The response of a response word (R88, U3). -/
def responseOf (w : RspWord) : Option Response :=
  match statusOf (w.extractLsb' 32 2) with
  | some st => some { status := st, data := w.extractLsb' 0 32 }
  | Option.none => Option.none

/-- The 2-bit code of a symbol on `dout` (R90). -/
def Symbol.bits : Symbol → BitVec 2
  | .s0 => 0b00#2
  | .s1 => 0b01#2
  | .sep => 0b10#2

/-- The symbol of a code; `11` has none (R90, U3). -/
def symbolOf (b : BitVec 2) : Option Symbol :=
  if b = 0b00#2 then some .s0
  else if b = 0b01#2 then some .s1
  else if b = 0b10#2 then some .sep
  else Option.none

/-- The two bits of the latch (R24). -/
def Pend.bits : Pend → BitVec 2
  | .none => 0b00#2
  | .p0 => 0b10#2
  | .p1 => 0b11#2

/-- The latch of a pattern; `01` has none (R24, U3). -/
def pendOf (b : BitVec 2) : Option Pend :=
  if b = 0b00#2 then some .none
  else if b = 0b10#2 then some .p0
  else if b = 0b11#2 then some .p1
  else Option.none

/-- The 10-bit register that holds `index` (R21, R30). -/
def indexBits (i : DrawIndex) : BitVec 10 := BitVec.ofNat 10 i.val

end Sys2Proof.Machine
end

