-- ==== Sys2Proof/Machine/Run.lean ====
section
/-! DEFINITION. Runs: sequences of commands and of command words (spec/00_scope.md R13), on this hardware and under any
configuration (R6), the same as functions on states (`perform`, `performAll`), and the generations of a seed with their draw stream (spec/40_mt_core.md R123). -/

namespace Sys2Proof.Machine

/-- A sequence performed in order, stopping at the first fault or refusal (R13, R58). -/
def inOrder {α : Type} (run : Performs α) : Performs (List α)
  | [], s => .next s
  | a :: as, s =>
    match run a s with
    | .next t => inOrder run as t
    | .fault r => .fault r
    | .refused r => .refused r

/-- A command sequence on this hardware. -/
def execAll : Performs (List Instr) := inOrder exec

/-- A command sequence under a configuration. -/
def execAllIn (cfg : Config) : Performs (List Instr) := inOrder (execIn cfg)

/-- A sequence of accepted command words, legal or not, on this hardware. -/
def acceptAll : Performs (List CmdWord) := inOrder accept

/-- One command under any configuration, as a function on states: what `execIn` answers (R6). -/
def perform (cfg : Config) (i : Instr) (s : State) : State :=
  match i with
  | .seed imm => seed imm s
  | .extract => extract cfg s
  | .dbit b => dbit b s
  | .dsep => dsep s
  | .dend => dend s

/-- A command sequence under any configuration (R58). -/
def performAll (cfg : Config) : List Instr → State → State
  | [], s => s
  | i :: is, s => performAll cfg is (perform cfg i s)

/-- `G_k`: the state vector left by `SEED s` (`G_0`), twisted `k` times (R123). -/
def generation (cfg : Config) (s : Word) : Nat → StateVec
  | 0 => seedVec (Vector.replicate 624 0#32) s
  | k + 1 => twistVec cfg (generation cfg s k)

/-- The `(n+1)`-th draw after `SEED s`: `TEMPER(G_k[j])` with `k = n / 624 + 1` and `j = n mod 624` (R123, draw number `d = n +
1`, for which `ceil(d / 624) = n / 624 + 1`). -/
def drawOf (cfg : Config) (s : Word) (n : Nat) : Word :=
  temper cfg (readWord (generation cfg s (n / 624 + 1)) (posOf n))

/-- The first `d` draws after `SEED s` (R183). -/
def drawStream (cfg : Config) (s : Word) (d : Nat) : List Word := (List.range d).map (drawOf cfg s)

/-- The response `OK` with a data word. -/
def okResponse (d : Word) : Response := { status := .ok, data := d }

/-- The data of the last response, 0 before any (R88). -/
def lastData (s : State) : Word :=
  match s.rsps.getLast? with
  | some r => r.data
  | Option.none => 0#32

end Sys2Proof.Machine
end

