-- ==== Sys2Proof/Machine/HostSide.lean ====
section
/-! DEFINITION. The host-side conventions and procedures of spec/42_host_conventions.md: the renderings of a drawn value (R181,
R182, R184), the data flow from the MT unit to the VN unit (R185), and the contract of the trojan watchers (R188, R189).  None
of it is a command or state of the block (R190). -/

namespace Sys2Proof.Machine

/-- `bytes_le(v)`: least significant byte first (R181). -/
def bytesLe (v : Word) : List (BitVec 8) :=
  [v.extractLsb' 0 8, v.extractLsb' 8 8, v.extractLsb' 16 8, v.extractLsb' 24 8]

/-- `render32(v)`: 32 characters, most significant bit first, leading zeros kept (R182). -/
def render32 (v : Word) : List Bool := (List.range 32).map fun j => v.getLsbD (31 - j)

/-- The rendering of a sequence, "one per line": one separator between consecutive values (R184).  A separator after the last
value is the file writer's choice (93_implementation_defined.md U11; DESIGN CHOICE, log entry 16).  The rule speaks of `k - 1`
separators and so says nothing for no values: they render as the empty string, with no separator even if `trailing`, there being
no last value (DESIGN CHOICE, log entry 16). -/
def renderSeq (trailing : Bool) (vs : List Word) : List Ch :=
  joinLines (vs.map render32) ++ (if trailing ∧ vs ≠ [] then [.sep] else [])

/-- `DWORD v`: 32 commands `DBIT`, `v[31]` first (R94). -/
def dword (v : Word) : List Instr := (render32 v).map .dbit

/-- The VN commands the host issues for the values `vs`: a `DSEP` before each but the first, `DWORD` of each, and a final `DEND`
(R185). -/
def flowCommands : List Word → List Instr
  | [] => [.dend]
  | v :: vs => dword v ++ (vs.flatMap fun u => .dsep :: dword u) ++ [.dend]

/-- Drawing one value and feeding it to the VN unit: one turn of R185's loop, `first` telling whether `n = 1`. -/
def flowTurn (cfg : Config) (first : Bool) (s : State) : State :=
  let drawn := perform cfg .extract s
  let v := lastData drawn
  performAll cfg (dword v) (if first then drawn else perform cfg .dsep drawn)

/-- The turns `n > 1` of R185's loop, `k` of them. -/
def flowTurns (cfg : Config) : Nat → State → State
  | 0, s => s
  | k + 1, s => flowTurns cfg k (flowTurn cfg false s)

/-- The whole data flow of R185 for `k` values: `SEED s`, the loop, `DEND`. -/
def dataFlow (cfg : Config) (s : Word) (k : Nat) (st : State) : State :=
  let seeded := perform cfg (.seed s) st
  match k with
  | 0 => perform cfg .dend seeded
  | n + 1 => perform cfg .dend (flowTurns cfg n (flowTurn cfg true seeded))

/-- The payload table of the watchers (R188). -/
def payloads : List Nat := [2, 3, 4, 5, 6, 7]

/-- How a watcher ends (R188, R189), with the state of the block then. -/
inductive WatchResult where
  /-- The trigger held: the payload selected from outside. -/
  | payload (v : Nat) (s : State)
  /-- "Fail fast (signal an out-of-bounds access)": the index is not in the table (R189). -/
  | outOfBounds (s : State)
  /-- A draw was answered with an error, so there is no value to look at. -/
  | drawRefused (st : Status) (s : State)
  /-- The trigger did not hold within the draws the model allows it (DESIGN CHOICE, log entry 17). -/
  | stillWatching (s : State)
  deriving DecidableEq, Repr

/-- What a triggered watcher returns for the index `k` (R188, R189). -/
def payloadAt (k : Nat) (s : State) : WatchResult :=
  match payloads[k]? with
  | some v => .payload v s
  | Option.none => .outOfBounds s

/-- The status of the last response. -/
def lastStatus (s : State) : Status :=
  match s.rsps.getLast? with
  | some r => r.status
  | Option.none => .ok

/-- The combinatorial watcher: "current drawn value's last decimal digit equals 2" (R188); at most `fuel` draws. -/
def watchCombinatorial (cfg : Config) (k : Nat) : Nat → State → WatchResult
  | 0, s => .stillWatching s
  | fuel + 1, s =>
    let t := perform cfg .extract s
    if lastStatus t ≠ .ok then .drawRefused (lastStatus t) t
    else if (lastData t).toNat % 10 = 2 then payloadAt k t
    else watchCombinatorial cfg k fuel t

/-- The sequential watcher: "the two most recently drawn values are both even" (R188), `prev` the value drawn before, if any; at
most `fuel` draws. -/
def watchSequential (cfg : Config) (k : Nat) : Option Word → Nat → State → WatchResult
  | _, 0, s => .stillWatching s
  | prev, fuel + 1, s =>
    let t := perform cfg .extract s
    let v := lastData t
    if lastStatus t ≠ .ok then .drawRefused (lastStatus t) t
    else
      match prev with
      | Option.none => watchSequential cfg k (some v) fuel t
      | some p =>
        if isOdd p = false ∧ isOdd v = false then payloadAt k t
        else watchSequential cfg k (some v) fuel t

end Sys2Proof.Machine
end

