-- ==== Sys2Proof/Machine/Assembler.lean ====
section
/-! DEFINITION. The assembler of spec/30_encoding.md R92 to R95: the commands of a line and of the pseudo-instructions, and the
reading of a line's text. -/

namespace Sys2Proof.Machine

/-- The commands of a legal line (R92 to R95). -/
def expandLine : AsmLine → List Instr
  | .seed n => [.seed (low32 n.toNat)]
  | .extract => [.extract]
  | .dbit b => [.dbit (decide (b = 1))]
  | .dsep => [.dsep]
  | .dend => [.dend]
  | .draw n => List.replicate n.toNat .extract
  | .dword w => dword (low32 w.toNat)
  | .dstr s => enc (s.filterMap chOf)

/-- The commands of a line; an illegal line is an assembly error, with no command (R92, R95). -/
def assembleLine (l : AsmLine) : Option (List Instr) :=
  if l.wf then some (expandLine l) else Option.none

/-- The command words of a program; one illegal line makes it an error. -/
def assemble : List AsmLine → Option (List CmdWord)
  | [] => some []
  | l :: ls =>
    match assembleLine l, assemble ls with
    | some is, some ws => some (is.map encode ++ ws)
    | _, _ => Option.none

/-- White space inside a line (PRESUMED, log entry 15). -/
def isBlank (c : Char) : Bool := c == ' ' || c == '\t'

/-- A line without the blanks at its two ends. -/
def trim (l : List Char) : List Char :=
  ((l.dropWhile isBlank).reverse.dropWhile isBlank).reverse

/-- A line without its comment, which starts at the first `;` outside a string (R92; PRESUMED, log entry 15); `quoted` tells
whether a string is open. -/
def dropComment : Bool → List Char → List Char
  | _, [] => []
  | quoted, c :: r =>
    if c = ';' ∧ quoted = false then []
    else c :: dropComment (if c = '"' then !quoted else quoted) r

/-- A decimal digit. -/
def decDigit (c : Char) : Option Nat :=
  if '0'.toNat ≤ c.toNat ∧ c.toNat ≤ '9'.toNat then some (c.toNat - '0'.toNat) else Option.none

/-- A hexadecimal digit, of either case (PRESUMED, log entry 15). -/
def hexDigit (c : Char) : Option Nat :=
  if 'a'.toNat ≤ c.toNat ∧ c.toNat ≤ 'f'.toNat then some (c.toNat - 'a'.toNat + 10)
  else if 'A'.toNat ≤ c.toNat ∧ c.toNat ≤ 'F'.toNat then some (c.toNat - 'A'.toNat + 10)
  else decDigit c

/-- The value of a string of digits, most significant first, after the value `acc`. -/
def digitsValue (base : Nat) (digit : Char → Option Nat) (acc : Nat) : List Char → Option Nat
  | [] => some acc
  | c :: r =>
    match digit c with
    | some d => digitsValue base digit (acc * base + d) r
    | Option.none => Option.none

/-- An unsigned literal, decimal or `0x` hexadecimal (R92). -/
def unsignedLiteral : List Char → Option Nat
  | [] => Option.none
  | '0' :: 'x' :: c :: r => digitsValue 16 hexDigit 0 (c :: r)
  | c :: r => digitsValue 10 decDigit 0 (c :: r)

/-- A literal with an optional minus sign: a negative one is read, and refused by `AsmLine.wf` (R92). -/
def literal : List Char → Option Int
  | '-' :: r => (unsignedLiteral r).map fun n => -(n : Int)
  | l => (unsignedLiteral l).map fun n => (n : Int)

/-- The characters of a string up to its closing quote, `\n` standing for U+000A (R95). -/
def stringBody : List Char → Option (List Char)
  | [] => Option.none
  | ['"'] => some []
  | '"' :: _ => Option.none
  | '\\' :: 'n' :: r => (stringBody r).map fun s => '\n' :: s
  | c :: r => (stringBody r).map fun s => c :: s

/-- A quoted string (R95). -/
def quotedString : List Char → Option (List Char)
  | '"' :: r => stringBody r
  | _ => Option.none

/-- The line of a mnemonic and its operand text, the mnemonic "in capitals" (R92 to R95). The source's names `twist`,
`extract`, `seed`, `debias` are no mnemonics (R96). R92 names decimal and `0x` hexadecimal for `SEED` only; here the operands of
`DBIT`, `DRAW` and `DWORD` are read in the same way, and leading zeros are read everywhere, so that `DBIT 0x1` and `DBIT 001` are
`DBIT 1` (DESIGN CHOICE, log entry 15). -/
def lineOf (mnemonic operand : List Char) : Option AsmLine :=
  if mnemonic = ['S', 'E', 'E', 'D'] then (literal operand).map .seed
  else if mnemonic = ['E', 'X', 'T', 'R', 'A', 'C', 'T'] then
    if operand = [] then some .extract else Option.none
  else if mnemonic = ['D', 'B', 'I', 'T'] then (literal operand).map .dbit
  else if mnemonic = ['D', 'S', 'E', 'P'] then if operand = [] then some .dsep else Option.none
  else if mnemonic = ['D', 'E', 'N', 'D'] then if operand = [] then some .dend else Option.none
  else if mnemonic = ['D', 'R', 'A', 'W'] then (literal operand).map .draw
  else if mnemonic = ['D', 'W', 'O', 'R', 'D'] then (literal operand).map .dword
  else if mnemonic = ['D', 'S', 'T', 'R'] then (quotedString operand).map .dstr
  else Option.none

/-- The reading of one line of text: `some none` for a line that holds no command (blank, or a comment only; PRESUMED, log
entry 15), `none` for a line that is no assembly (R92). -/
def readLine (text : List Char) : Option (Option AsmLine) :=
  let l := trim (dropComment false text)
  if l = [] then some Option.none
  else
    match lineOf (l.takeWhile fun c => !isBlank c) (trim (l.dropWhile fun c => !isBlank c)) with
    | some a => some (some a)
    | Option.none => Option.none

/-- The lines of a program's text, each read by itself (R92). -/
def readLines : List (List Char) → Option (List AsmLine)
  | [] => some []
  | t :: ts =>
    match readLine t, readLines ts with
    | some (some a), some ls => some (a :: ls)
    | some Option.none, some ls => some ls
    | _, _ => Option.none

/-- The command words of a program's text (R92 to R95). -/
def assembleText (lines : List (List Char)) : Option (List CmdWord) := (readLines lines).bind assemble

end Sys2Proof.Machine
end

