-- ==== Sys2Proof/Safety.lean ====
section
/-! DEFINITION. What counts as a legal state and a safe run, in the terms the statements use: the invariants of
spec/10_state.md R33 and spec/30_encoding.md R88, the lineage of the state vector, and error-free responses
(spec/60_exceptions.md R200). -/

namespace Sys2Proof.Machine

/-- A response as R88 lets it be: an error status comes with data 0. -/
def LegalResponse (r : Response) : Prop := r.status ≠ .ok → r.data = 0#32

/-- R33 (c), and R88 of every response given.  R33 (a), (b) and (d) hold by the types of `words`, `index` and `pend`. -/
def LegalState (s : State) : Prop :=
  (s.seeded = false → s.index = Fin.last 624) ∧ ∀ r ∈ s.rsps, LegalResponse r

/-- Under a configuration: while the unit is seeded, its words are `G_k` of some seed, and the index is the exhausted sentinel before the first twist
(R37, R110, R112, R123). -/
def Lineage (cfg : Config) (s : State) : Prop :=
  s.seeded = true →
    ∃ seed k, s.words = generation cfg seed k ∧ (k = 0 → s.index = Fin.last 624)

/-- No error among the responses (R200). -/
def AllOk (rs : List Response) : Prop := ∀ r ∈ rs, r.status = .ok

/-- The commands of the MT unit (R62, R84). -/
def isMt : Instr → Bool
  | .seed _ => true
  | .extract => true
  | .dbit _ => false
  | .dsep => false
  | .dend => false

/-- The relation of R122 between the words before (`old`) and after (`new`) a twist, with its `mix` and `mag` written out. -/
def ByOperandAge (cfg : Config) (old new : StateVec) : Prop :=
  let mix := fun (u v : Word) => (u &&& 0x80000000#32) ||| (v &&& 0x7FFFFFFF#32)
  let mag := fun (x : Word) => (x >>> 1) ^^^ (if x.toNat % 2 = 1 then cfg.aCoeff else 0#32)
  (∀ (i : Nat) (_ : i ≤ 226), new[i]'(by omega) =
    old[i + 397]'(by omega) ^^^ mag (mix (old[i]'(by omega)) (old[i + 1]'(by omega)))) ∧
  (∀ (i : Nat) (_ : 227 ≤ i) (_ : i ≤ 622), new[i]'(by omega) =
    new[i - 227]'(by omega) ^^^ mag (mix (old[i]'(by omega)) (old[i + 1]'(by omega)))) ∧
  new[623] = new[396] ^^^ mag (mix old[623] new[0])

/-- The transfers that answer one command: its symbols, if any, no later than its response (R80). -/
def answer (ys : List Symbol) (r : Response) : List Transfer := ys.map .dout ++ [.rsp r]

/-- The moves by which the host offers the words of `is`, one after another (R58). -/
def offers (is : List Instr) : List HostMove := is.map fun i => .offer (encode i)

/-- The machine's `n` steps from a state (Host/Core.lean's run, on this machine). -/
def runSteps : Nat → State → Host.Outcome State Fault Refusal
  | 0, s => .next s
  | n + 1, s =>
    match step s with
    | .next t => runSteps n t
    | .fault r => .fault r
    | .refused r => .refused r

end Sys2Proof.Machine
end

