-- ==== Sys2Proof/Certificates/Slice0/Obligations.lean ====
section
/-! DEFINITION. The statements for the provers, from the numbered rules of spec/.  Where a statement writes a next state as a
record update `{ s with … }`, every field it does not name is unchanged: the equation is the command's frame as well.  `s.rsps` and
`s.dout` are the two channels' parts of `s.transfers`. -/

open Sys2Proof Sys2Proof.Machine

/-! ## Reset and the host's moves -/

/-- R35: "After reset: `index = 624`, `seeded = 0`, `pend = NONE`."  (And, by R36, no response and no symbol.) -/
def Obligations.ResetValues : Prop :=
  State.reset.index.val = 624 ∧ State.reset.seeded = false ∧ State.reset.pend = .none ∧
    State.reset.transfers = [] ∧ State.reset.rsps = [] ∧ State.reset.dout = []

/-- R230: what a reset during a run leaves.  The words are not named: the rule leaves them unspecified.  That what the host has
received stays in `transfers` is the model's choice (log entry 7); that the abandoned command's own symbol may or may not
have been transferred is log entry 8. -/
def Obligations.ResetDuringRun : Prop :=
  ∀ (s : State) (rest : List HostMove) (offered : Option CmdWord) (w : CmdWord),
    (s.inputs = .rst offered :: rest →
      ∃ t, step s = .next t ∧ t.index.val = 624 ∧ t.seeded = false ∧ t.pend = .none ∧ t.inputs = rest ∧
        t.transfers = s.transfers) ∧
    (s.inputs = .rstDuring w :: rest →
      ∃ t, step s = .next t ∧ t.index.val = 624 ∧ t.seeded = false ∧ t.pend = .none ∧ t.inputs = rest ∧
        t.rsps = s.rsps ∧
        (t.transfers = s.transfers ∨
          ∃ i y, decode w = .command i ∧ emission i s = some y ∧ t.transfers = s.transfers ++ [.dout y]))

/-- R231, first half: of all the moves of the host only one that asserts `rst` clears `seeded`. -/
def Obligations.OnlyResetClearsSeeded : Prop :=
  ∀ (s t : State) (m : HostMove) (rest : List HostMove), s.inputs = m :: rest → step s = .next t →
    s.seeded = true → t.seeded = false → m.resets = true

/-- R240: without a command and without `rst`, nothing changes. -/
def Obligations.NoCommandNoChange : Prop :=
  ∀ s : State, (s.inputs = [] → step s = .next s) ∧
    ∀ rest, s.inputs = .silent :: rest → step s = .next { s with inputs := rest }

/-- A step with a word offered accepts the word: the command it decodes to is performed as `exec` has it, an illegal word is
answered `ERR_ILLEGAL` and changes nothing else (R80, R86, R202).  The step's own part is taking the move off `inputs` (log
entry 6). -/
def Obligations.StepRunsDecodedInstr : Prop :=
  ∀ (s : State) (w : CmdWord) (rest : List HostMove), s.inputs = .offer w :: rest →
    step s = accept w { s with inputs := rest } ∧
    (∀ i, decode w = .command i → step s = exec i { s with inputs := rest }) ∧
    ∀ why, decode w = .illegal why → step s = .next { s with
      inputs := rest
      transfers := s.transfers ++ [.rsp { status := .errIllegal, data := 0#32 }] }

/-- The host's table word, placed as the next move, is the instruction the next step runs. -/
def Obligations.TableWordRunsNext : Prop :=
  ∀ (s : State) (nbits w : Nat) (i : Instr), decodeTableWord nbits w = some i →
    step (s.withFetchWord nbits w) = exec i s

/-- R58 for words on the command port: as many steps as words offered perform the commands in order, and accept the words in
order when some of them are illegal. -/
def Obligations.OfferedWordsRunInOrder : Prop :=
  (∀ (is : List Instr) (rest : List HostMove) (s : State), s.inputs = offers is ++ rest →
    runSteps is.length s = execAll is { s with inputs := rest }) ∧
  ∀ (ws : List CmdWord) (rest : List HostMove) (s : State), s.inputs = ws.map .offer ++ rest →
    runSteps ws.length s = acceptAll ws { s with inputs := rest }

/-- R11, R216, R245: every step answers with a next state, and an accepted word is owed exactly one response. -/
def Obligations.EveryStepCompletes : Prop :=
  ∀ s : State, ∃ t, step s = .next t ∧
    t.rsps.length = s.rsps.length + (match s.inputs with | .offer _ :: _ => 1 | _ => 0)

/-- R20, R55: the state words are written by `SEED`, by the `EXTRACT` that twists, and by reset, and by nothing else. -/
def Obligations.WordsWrittenOnlyBySeedTwistReset : Prop :=
  ∀ (s t : State) (m : HostMove) (rest : List HostMove), s.inputs = m :: rest → step s = .next t →
    t.words ≠ s.words →
      m.resets = true ∨ (∃ x, m = .offer (encode (.seed x))) ∨
        (m = .offer (encode .extract) ∧ s.seeded = true ∧ s.index.val = 624)

/-! ## Encoding -/

/-- R84: the opcode map, row by row, `match` and `mask` as the rule's table has them, with the operand each row carries; a word
that selects no row is illegal, no word selects two rows, and `opc[3:2]` names the unit. -/
def Obligations.OpcodeMapSelects : Prop :=
  ∀ w : CmdWord,
    (w &&& 0xF00000000#36 = 0x100000000#36 ↔ decode w = .command (.seed (w.setWidth 32))) ∧
    (w &&& 0xFFFFFFFFF#36 = 0x200000000#36 ↔ decode w = .command .extract) ∧
    (w &&& 0xFFFFFFFFE#36 = 0x400000000#36 ↔ decode w = .command (.dbit (w.getLsbD 0))) ∧
    (w &&& 0xFFFFFFFFF#36 = 0x500000000#36 ↔ decode w = .command .dsep) ∧
    (w &&& 0xFFFFFFFFF#36 = 0x600000000#36 ↔ decode w = .command .dend) ∧
    ((∃ why, decode w = .illegal why) ↔ ∀ r ∈ opTable, ¬ r.Selects w) ∧
    (∀ r ∈ opTable, ∀ r' ∈ opTable, r.Selects w → r'.Selects w → r = r') ∧
    ∀ i, decode w = .command i → w.extractLsb' 34 2 = if isMt i = true then 0b00#2 else 0b01#2

/-- R86: exactly which words are illegal, `opc` and `imm` read off the word as a number, and how an illegal word is answered in
every state. -/
def Obligations.IllegalWordsExactly : Prop :=
  (∀ w : CmdWord, (∃ why, decode w = .illegal why) ↔
    (w.toNat / 2 ^ 32 ∈ [0x0, 0x3, 0x7, 0x8, 0x9, 0xA, 0xB, 0xC, 0xD, 0xE, 0xF] ∨
     (w.toNat / 2 ^ 32 ∈ [0x2, 0x5, 0x6] ∧ w.toNat % 2 ^ 32 ≠ 0) ∨
     (w.toNat / 2 ^ 32 = 0x4 ∧ w.toNat % 2 ^ 32 / 2 ≠ 0))) ∧
  (∃ why, decode 0#36 = .illegal why) ∧
  ∀ (w : CmdWord) (why : Illegal) (s : State), decode w = .illegal why →
    accept w s = .next { s with transfers := s.transfers ++ [.rsp { status := .errIllegal, data := 0#32 }] }

/-- Decoding undoes encoding, for every command and every operand. -/
def Obligations.DecodeEncodeRoundTrip : Prop := ∀ i : Instr, decode (encode i) = .command i

/-- A word that decodes is the encoding of what it decodes to: no bit of a legal word is ignored. -/
def Obligations.EncodeDecodeRoundTrip : Prop :=
  ∀ (w : CmdWord) (i : Instr), decode w = .command i → encode i = w

/-- The words of 95_test_vectors.md section 2.8 decode as its table says. -/
def Obligations.SampleWordsDecode : Prop :=
  decode 0x100001571#36 = .command (.seed 5489#32) ∧ decode 0x1FFFFFFFF#36 = .command (.seed 4294967295#32) ∧
  decode 0x200000000#36 = .command .extract ∧ decode 0x400000000#36 = .command (.dbit false) ∧
  decode 0x400000001#36 = .command (.dbit true) ∧ decode 0x500000000#36 = .command .dsep ∧
  decode 0x600000000#36 = .command .dend ∧ decode 0x200000001#36 = .illegal .operandNotZero ∧
  decode 0x400000002#36 = .illegal .operandNotZero ∧ decode 0x300000000#36 = .illegal (.unassignedOpcode 3#4)

/-- R88: the response word's two fields; a response word is read back as the response; no response has status code `11`; the
words of 95_test_vectors.md section 2.8. -/
def Obligations.ResponseWordFields : Prop :=
  (∀ r : Response, r.bits.toNat = r.status.bits.toNat * 2 ^ 32 + r.data.toNat ∧ responseOf r.bits = some r ∧
    r.bits.toNat / 2 ^ 32 ≠ 3) ∧
  (∀ (w : RspWord) (r : Response), responseOf w = some r → r.bits = w) ∧
  (okResponse 0xD091BB5C#32).bits = 0x0D091BB5C#34 ∧
  ({ status := .errUnseeded, data := 0#32 } : Response).bits = 0x100000000#34 ∧
  ({ status := .errIllegal, data := 0#32 } : Response).bits = 0x200000000#34

/-- R90: the symbol codes, what they read as, and what `emit` does; `11` is never produced. -/
def Obligations.SymbolCodes : Prop :=
  Symbol.bits .s0 = 0b00#2 ∧ Symbol.bits .s1 = 0b01#2 ∧ Symbol.bits .sep = 0b10#2 ∧
  (∀ y : Symbol, y.bits ≠ 0b11#2 ∧ symbolOf y.bits = some y) ∧
  (∀ (y : Symbol) (s : State), s.emit y = { s with transfers := s.transfers ++ [.dout y] } ∧
    (s.emit y).dout = s.dout ++ [y]) ∧
  charOf (symbolCh .s0) = '0' ∧ charOf (symbolCh .s1) = '1' ∧ (charOf (symbolCh .sep)).toNat = 0x0A

/-! ## The MT unit -/

/-- R110: what `SEED s` leaves and answers, in every state. -/
def Obligations.SeedResult : Prop :=
  ∀ (x : Word) (s : State),
    decode (0x1#4 ++ x) = .command (.seed x) ∧
    ∃ t, exec (.seed x) s = .next t ∧ t.words[0] = x ∧
      (∀ (i : Nat) (h : i + 1 < 624),
        t.words[i + 1] = low32 (1812433253 * (t.words[i] ^^^ (t.words[i] >>> 30)).toNat + (i + 1))) ∧
      t.index.val = 624 ∧ t.seeded = true ∧
      t.transfers = s.transfers ++ [.rsp { status := .ok, data := 0#32 }] ∧
      t.pend = s.pend ∧ t.inputs = s.inputs ∧ t.resets = s.resets ∧ t.twists = s.twists

/-- R115, which the spec marks as its own inference: the exact computation and the 32-bit wrapping one give the same word. -/
def Obligations.SeedArithmeticWraps : Prop :=
  ∀ (t : Word) (i : Nat), 1 ≤ i → i ≤ 623 →
    low32 (1812433253 * t.toNat + i) = 1812433253#32 * t + BitVec.ofNat 32 i ∧ 1812433253 * t.toNat < 2 ^ 63

/-- R127, R124: a seed gives the same words, index and flag in every state, and the same draws after it; on this hardware and, by
`execIn`, under every configuration. -/
def Obligations.SeedFixesTheStream : Prop :=
  (∀ i s, exec i s = execIn hardware i s) ∧ (∀ is s, execAll is s = execAllIn hardware is s) ∧
  ∀ (cfg : Config) (x : Word) (n : Nat) (s s' : State), ∃ t t' u u' ds,
    execIn cfg (.seed x) s = .next t ∧ execIn cfg (.seed x) s' = .next t' ∧
    t.words = t'.words ∧ t.index = t'.index ∧ t.seeded = t'.seeded ∧
    execAllIn cfg (List.replicate n .extract) t = .next u ∧ execAllIn cfg (List.replicate n .extract) t' = .next u' ∧
    u.rsps = t.rsps ++ ds ∧ u'.rsps = t'.rsps ++ ds ∧ ds.length = n

/-- R111: `EXTRACT` in its three cases.  The twist is `twistVec` (see `TwistByOperandAge`), the tempering `temper` (see
`TemperExact`). -/
def Obligations.ExtractResult : Prop :=
  decode (0x2#4 ++ 0#32) = .command .extract ∧
  ∀ s : State,
    (s.seeded = false →
      exec .extract s = .next { s with transfers := s.transfers ++ [.rsp { status := .errUnseeded, data := 0#32 }] }) ∧
    (∀ h : s.index.val < 624, s.seeded = true →
      exec .extract s = .next { s with
        index := ⟨s.index.val + 1, by omega⟩
        transfers := s.transfers ++ [.rsp { status := .ok, data := temper hardware s.words[s.index.val] }] }) ∧
    (s.index.val = 624 → s.seeded = true →
      exec .extract s = .next { s with
        words := twistVec hardware s.words
        index := 1
        twists := s.twists + 1
        transfers := s.transfers ++
          [.rsp { status := .ok, data := temper hardware (twistVec hardware s.words)[0] }] })

/-- R6 for R111: `EXTRACT` in its two drawing cases under every configuration, the two parameters where the rule has them; and
every other case, and every other command, is this hardware's. -/
def Obligations.EveryConfigDraws : Prop :=
  ∀ (cfg : Config) (s : State),
    (s.seeded = false → execIn cfg .extract s = exec .extract s) ∧
    (∀ h : s.index.val < 624, s.seeded = true →
      execIn cfg .extract s = .next { s with
        index := ⟨s.index.val + 1, by omega⟩
        transfers := s.transfers ++ [.rsp { status := .ok, data := temper cfg s.words[s.index.val] }] }) ∧
    (s.index.val = 624 → s.seeded = true →
      execIn cfg .extract s = .next { s with
        words := twistVec cfg s.words
        index := 1
        twists := s.twists + 1
        transfers := s.transfers ++ [.rsp { status := .ok, data := temper cfg (twistVec cfg s.words)[0] }] }) ∧
    ∀ i : Instr, i ≠ .extract → execIn cfg i s = exec i s

/-- R201: when `ERR_UNSEEDED` is raised, by what, with which code, and that nothing else changes. -/
def Obligations.UnseededDrawRefused : Prop :=
  Status.bits .errUnseeded = 0b01#2 ∧
  (∀ s : State, s.seeded = false →
    exec .extract s = .next { s with transfers := s.transfers ++ [.rsp { status := .errUnseeded, data := 0#32 }] }) ∧
  ∀ (w : CmdWord) (s t : State) (r : Response), accept w s = .next t → t.rsps = s.rsps ++ [r] →
    r.status = .errUnseeded → decode w = .command .extract ∧ s.seeded = false

/-- R28: how each command moves the index. -/
def Obligations.IndexSuccession : Prop :=
  ∀ (s : State) (x : Word) (b : Bool), ∃ ts te tb tp td,
    exec (.seed x) s = .next ts ∧ exec .extract s = .next te ∧ exec (.dbit b) s = .next tb ∧
    exec .dsep s = .next tp ∧ exec .dend s = .next td ∧
    ts.index.val = 624 ∧
    te.index.val =
      (if s.seeded = false then s.index.val else if s.index.val < 624 then s.index.val + 1 else 1) ∧
    tb.index = s.index ∧ tp.index = s.index ∧ td.index = s.index

/-- R122, which the spec marks as its own inference from R112: the twist by operand age, for every configuration and every
vector; and a twist that takes every operand from the old words computes another function from position 227 on.  The two masks
in `mix` are the values of R22 (the spec's general knowledge, log entry 5). -/
def Obligations.TwistByOperandAge : Prop :=
  (∀ (cfg : Config) (old : StateVec), ByOperandAge cfg old (twistVec cfg old)) ∧
  ∀ cfg : Config, ∃ old : StateVec, ∃ i : Pos, 227 ≤ i.val ∧
    readWord (twistVec cfg old) i ≠
      readWord old (offsetPos i) ^^^ mag cfg (mix (readWord old i) (readWord old (nextPos i)))

/-- R112 corner case (c), which the spec marks as its own inference: the all-zero vector is a fixed point of the twist, and no
seed leaves it. -/
def Obligations.ZeroVectorFixedAndNeverSeeded : Prop :=
  (∀ cfg : Config, twistVec cfg (Vector.replicate 624 0#32) = Vector.replicate 624 0#32) ∧
  ∀ (v : StateVec) (x : Word), seedVec v x ≠ Vector.replicate 624 0#32

/-- R112 corner case (d), which the spec marks as its own inference: bits 30 to 0 of the old `state[0]` are never read by a
twist (the masks are those of R22, log entry 5). -/
def Obligations.TwistIgnoresLowBitsOfWordZero : Prop :=
  ∀ (cfg : Config) (v : StateVec) (x : Word), x.getLsbD 31 = (readWord v 0).getLsbD 31 →
    twistVec cfg (writeWord v 0 x) = twistVec cfg v

/-- R52: the wrap of the two computed index forms. -/
def Obligations.IndexFormsWrap : Prop :=
  ∀ i : Pos,
    (offsetPos i).val = (if i.val + 397 ≥ 624 then i.val + 397 - 624 else i.val + 397) ∧
    (nextPos i).val = (if i.val = 623 then 0 else i.val + 1)

/-- R117, which the spec marks as its own inference, with the exact steps of R113 on unbounded integers: every intermediate is
below 2^32, the final `low32` is the identity, and a 32-bit datapath computes the same function. -/
def Obligations.TemperExact : Prop :=
  ∀ (cfg : Config) (y : Word),
    let y1 := y.toNat ^^^ (y.toNat >>> 11)
    let y2 := y1 ^^^ ((y1 <<< cfg.temperS) &&& 0x9D2C5680)
    let y3 := y2 ^^^ ((y2 <<< 15) &&& 0xEFC60000)
    let y4 := y3 ^^^ (y3 >>> 18)
    let z1 := y ^^^ (y >>> 11)
    let z2 := z1 ^^^ ((z1 <<< cfg.temperS) &&& 0x9D2C5680#32)
    let z3 := z2 ^^^ ((z2 <<< 15) &&& 0xEFC60000#32)
    y1 < 2 ^ 32 ∧ y2 < 2 ^ 32 ∧ y3 < 2 ^ 32 ∧ y4 < 2 ^ 32 ∧ (temper cfg y).toNat = y4 ∧
      temper cfg y = z3 ^^^ (z3 >>> 18)

/-- R113 corner case (c), which the spec marks as its own inference: `TEMPER` is a bijection for either value of `TEMPER_S`,
and maps 0 to 0. -/
def Obligations.TemperBijective : Prop :=
  ∀ cfg : Config, cfg.Admitted → Function.Bijective (temper cfg) ∧ temper cfg 0#32 = 0#32

/-- R123, which the spec marks as its own inference: the `d`-th `EXTRACT` after `SEED x`, with no other MT command between, in
closed form: the value it returns, and the index and the vector it leaves.  `is` is what stands between the `SEED` and that
`EXTRACT`; `ceil(d / 624) = (d + 623) / 624`. -/
def Obligations.DrawStreamClosedForm : Prop :=
  (∀ is s, execAll is s = execAllIn hardware is s) ∧
  ∀ (cfg : Config) (x : Word) (is : List Instr) (s : State), (∀ i ∈ is, i = .extract ∨ isMt i = false) → ∃ t u,
    execAllIn cfg (.seed x :: is) s = .next t ∧ execAllIn cfg (.seed x :: is ++ [.extract]) s = .next u ∧
    let d := is.count .extract + 1
    let k := (d + 623) / 624
    let j := (d - 1) % 624
    u.transfers = t.transfers ++ [.rsp (okResponse (temper cfg (readWord (generation cfg x k) (posOf j))))] ∧
      u.index.val = j + 1 ∧ u.words = generation cfg x k

/-- R125: the twist comes before word 0 of each new generation is drawn, that is, `d` draws after a `SEED` contain the twists
inside draws 1, 625, 1249, …, so `624 * k` draws contain exactly `k`; by the model's ghost count (log entry 10). -/
def Obligations.TwistCadence : Prop :=
  (∀ is s, execAll is s = execAllIn hardware is s) ∧
  ∀ (cfg : Config) (x : Word) (s : State),
    (∀ d, ∃ t, execAllIn cfg (.seed x :: List.replicate d .extract) s = .next t ∧
      t.twists = s.twists + (d + 623) / 624) ∧
    ∀ k, 1 ≤ k → ∃ t, execAllIn cfg (.seed x :: List.replicate (624 * k) .extract) s = .next t ∧
      t.twists = s.twists + k ∧ t.index.val = 624

/-- The state left by a command sequence does not depend on `TEMPER_S`: tempering is not written back (R111, R113;
95_test_vectors.md sections 2.2 and 2.4). -/
def Obligations.StateIndependentOfTemperShift : Prop :=
  ∀ (cfg cfg' : Config) (is : List Instr) (s : State), cfg.aCoeff = cfg'.aCoeff →
    let t := performAll cfg is s
    let t' := performAll cfg' is s
    t'.words = t.words ∧ t'.index = t.index ∧ t'.seeded = t.seeded ∧ t'.pend = t.pend ∧ t'.dout = t.dout

/-- The machine is the one of the DOC configuration (R6, log entries 3 and 4): `A_COEFF = 0x990FB0DF`, `TEMPER_S = 7`; its
meanings, its acceptance of words and its step are those of `execIn`, `acceptIn` and `stepIn` at it. -/
def Obligations.MachineRunsDocConfig : Prop :=
  hardware = { aCoeff := 0x990FB0DF#32, temperS := 7 } ∧
  (∀ (i : Instr) (s : State), exec i s = execIn hardware i s ∧ exec i s = .next (perform hardware i s)) ∧
  (∀ (w : CmdWord) (s : State), accept w s = acceptIn hardware w s) ∧ ∀ s : State, step s = stepIn hardware s

/-- R6, R80, R202, R204, R230, R240 for the machine of every configuration: what a step does with each move of the host. -/
def Obligations.EveryConfigSteps : Prop :=
  ∀ (cfg : Config) (s : State),
    (s.inputs = [] → stepIn cfg s = .next s) ∧
    ∀ (m : HostMove) (rest : List HostMove), s.inputs = m :: rest →
      match m with
      | .silent => stepIn cfg s = .next { s with inputs := rest }
      | .offer w =>
        stepIn cfg s = acceptIn cfg w { s with inputs := rest } ∧
        match decode w with
        | .command i => stepIn cfg s = execIn cfg i { s with inputs := rest }
        | .illegal _ => stepIn cfg s = .next { s with
            inputs := rest
            transfers := s.transfers ++ [.rsp { status := .errIllegal, data := 0#32 }] }
      | .rst _ => stepIn cfg s = step s
      | .rstDuring _ => stepIn cfg s = step s

/-! ## The VN unit -/

/-- R150: `DBIT b` in every state of the latch. -/
def Obligations.DbitResult : Prop :=
  (∀ b : Bool, decode (0x4#4 ++ (0#31 ++ BitVec.ofBool b)) = .command (.dbit b)) ∧
  ∀ (s : State) (b : Bool),
    let ok := Transfer.rsp { status := .ok, data := 0#32 }
    (s.pend = .none → exec (.dbit b) s = .next { s with pend := if b = false then .p0 else .p1, transfers := s.transfers ++ [ok] }) ∧
    (s.pend = .p0 → b = true → exec (.dbit b) s = .next { s with pend := .none, transfers := s.transfers ++ [.dout .s0, ok] }) ∧
    (s.pend = .p1 → b = false → exec (.dbit b) s = .next { s with pend := .none, transfers := s.transfers ++ [.dout .s1, ok] }) ∧
    (s.pend = .p0 → b = false → exec (.dbit b) s = .next { s with pend := .none, transfers := s.transfers ++ [ok] }) ∧
    (s.pend = .p1 → b = true → exec (.dbit b) s = .next { s with pend := .none, transfers := s.transfers ++ [ok] })

/-- R151: `DSEP` in every state. -/
def Obligations.DsepResult : Prop :=
  decode (0x5#4 ++ 0#32) = .command .dsep ∧
  ∀ s : State, exec .dsep s = .next { s with
    pend := .none
    transfers := s.transfers ++ [.dout .sep, .rsp { status := .ok, data := 0#32 }] }

/-- R152: `DEND` in every state; with `pend == NONE` only the response is new. -/
def Obligations.DendResult : Prop :=
  decode (0x6#4 ++ 0#32) = .command .dend ∧
  ∀ s : State, exec .dend s = .next { s with
    pend := .none
    transfers := s.transfers ++ [.rsp { status := .ok, data := 0#32 }] }

/-- R155, which the spec marks as its own inference: streaming `enc(s)` from `pend == NONE` emits exactly `debias(s)` and
leaves `pend == NONE`; the MT unit is untouched. -/
def Obligations.StreamingEqualsDebias : Prop :=
  ∀ (str : List Ch) (s : State), s.pend = .none → ∃ t,
    execAll (enc str) s = .next t ∧ t.dout.map symbolCh = s.dout.map symbolCh ++ debias str ∧ t.pend = .none ∧
    t.words = s.words ∧ t.index = s.index ∧ t.seeded = s.seeded ∧
    t.rsps = s.rsps ++ List.replicate (str.length + 1) (okResponse 0#32)

/-- R156, R241 (the latter the spec's own inference): strings closed with `DEND` do not influence one another. -/
def Obligations.ClosedStringsAreIndependent : Prop :=
  ∀ (a b : List Ch) (s : State), s.pend = .none → ∃ t,
    execAll (enc a ++ enc b) s = .next t ∧
    t.dout.map symbolCh = s.dout.map symbolCh ++ debias a ++ debias b ∧ t.pend = .none

/-- R157: the edge cases (a) to (g), of which the spec marks (e) and (f) as its own inference; (e) and (f) for every string, as R184
uses (e), beside the rule's own strings. -/
def Obligations.DebiasEdgeCases : Prop :=
  (∀ l : List Bool, (∀ p ∈ pairsOf l, p.1 = p.2) → debias (l.map .bit) = []) ∧
  debias [] = [] ∧
  (∀ b, debias [.bit b] = []) ∧
  (∀ (l : List Bool) (b : Bool), l.length % 2 = 0 → debias ((l ++ [b]).map .bit) = debias (l.map .bit)) ∧
  (∀ str : List Ch, debias (str ++ [.sep]) = debias str ++ [.sep]) ∧
  debias [.bit false, .bit true, .bit false, .bit true, .sep] = [.bit false, .bit false, .sep] ∧
  (∀ a b : List Ch, debias (a ++ .sep :: .sep :: b) = debias a ++ .sep :: .sep :: debias b) ∧
  debias [.sep, .sep] = [.sep, .sep] ∧
  (∀ l : List Bool, (debias (l.map .bit)).length ≤ l.length / 2)

/-- R158: the source's literal cases. -/
def Obligations.DebiasLiteralCases : Prop :=
  debias [.bit false, .bit true, .bit true, .bit false] = [.bit false, .bit true] ∧
  debias [.bit false, .bit false, .bit true, .bit true] = [] ∧
  debias [.bit false, .bit true, .bit false] = [.bit false] ∧
  debias [.bit false, .bit true, .bit false, .bit true, .sep, .bit true, .bit false, .bit true, .bit false] =
    [.bit false, .bit false, .sep, .bit true, .bit true]

/-- R153 step (5), R151 corner case (a): the output has exactly as many separators as the input. -/
def Obligations.DebiasKeepsSeparators : Prop :=
  ∀ str : List Ch, (debias str).count .sep = str.count .sep

/-! ## Both units, errors, invariants -/

/-- R62: the units share no state, and a command of the one commutes with a command of the other. -/
def Obligations.UnitsCommute : Prop :=
  ∀ (m v : Instr) (s : State), isMt m = true → isMt v = false →
    (∃ u, exec m s = .next u ∧ u.pend = s.pend ∧ u.dout = s.dout ∧
      ∀ p, exec m { s with pend := p } = .next { u with pend := p }) ∧
    (∃ u, exec v s = .next u ∧ u.words = s.words ∧ u.index = s.index ∧ u.seeded = s.seeded ∧
      ∀ ws n b, exec v { s with words := ws, index := n, seeded := b } =
        .next { u with words := ws, index := n, seeded := b }) ∧
    ∃ t a b ys, execAll [m, v] s = .next t ∧ t.transfers = s.transfers ++ answer [] a ++ answer ys b ∧
      execAll [v, m] s = .next { t with transfers := s.transfers ++ answer ys b ++ answer [] a }

/-- R89: the response and the symbols of every accepted word, case by case, on this hardware and under every configuration; the
symbols are transferred no later than the response (R80). -/
def Obligations.ResponseTable : Prop :=
  (∀ w s, accept w s = acceptIn hardware w s) ∧
  ∀ (cfg : Config) (w : CmdWord) (s : State), ∃ t r ys,
    acceptIn cfg w s = .next t ∧ t.transfers = s.transfers ++ answer ys r ∧ t.rsps = s.rsps ++ [r] ∧
    t.dout = s.dout ++ ys ∧
    match decode w with
    | .illegal _ => r = { status := .errIllegal, data := 0#32 } ∧ ys = []
    | .command (.seed _) => r = { status := .ok, data := 0#32 } ∧ ys = []
    | .command .extract =>
      ys = [] ∧
        (s.seeded = false → r = { status := .errUnseeded, data := 0#32 }) ∧
        (s.seeded = true → r.status = .ok ∧
          ∃ i : Pos, (if s.index.val = 624 then i.val = 0 else i.val = s.index.val) ∧
            r.data = temper cfg (readWord t.words i))
    | .command (.dbit b) =>
      r = { status := .ok, data := 0#32 } ∧
        ys = (match s.pend with
          | .none => []
          | .p0 => if b = true then [.s0] else []
          | .p1 => if b = false then [.s1] else [])
    | .command .dsep => r = { status := .ok, data := 0#32 } ∧ ys = [.sep]
    | .command .dend => r = { status := .ok, data := 0#32 } ∧ ys = []

/-- R80, R58: a sequence of accepted words, legal or not, gives for each word in turn zero or one transfer on `dout` and, no earlier,
exactly one on `rsp`. -/
def Obligations.TransfersOfAcceptedWords : Prop :=
  ∀ (ws : List CmdWord) (s : State), ∃ (t : State) (as : List (List Symbol × Response)),
    acceptAll ws s = .next t ∧ as.length = ws.length ∧ (∀ a ∈ as, a.1.length ≤ 1) ∧
    t.transfers = s.transfers ++ as.flatMap fun a => answer a.1 a.2

/-- R200: on a seeded unit every sequence of legal commands is answered `OK` throughout, and the unit stays seeded. -/
def Obligations.SeededUnitNeverErrs : Prop :=
  ∀ (is : List Instr) (s : State), s.seeded = true → ∃ t rs,
    execAll is s = .next t ∧ t.rsps = s.rsps ++ rs ∧ rs.length = is.length ∧ AllOk rs ∧ t.seeded = true

/-- R203: the status codes, and that no VN command and no `SEED` is ever refused. -/
def Obligations.NoOtherErrors : Prop :=
  Status.bits .ok = 0b00#2 ∧ Status.bits .errUnseeded = 0b01#2 ∧ Status.bits .errIllegal = 0b10#2 ∧
  (∀ st : Status, st.bits ≠ 0b11#2) ∧
  ∀ (i : Instr) (s : State), i ≠ .extract → ∃ t, exec i s = .next t ∧ t.rsps = s.rsps ++ [okResponse 0#32]

/-- R206, R207: a command answered with an error has had no effect at all but its response. -/
def Obligations.ErrorsLeaveNoTrace : Prop :=
  ∀ (w : CmdWord) (s t : State) (r : Response), accept w s = .next t → t.rsps = s.rsps ++ [r] →
    r.status ≠ .ok → r.data = 0#32 ∧ t = { s with transfers := s.transfers ++ [.rsp r] }

/-- R33, which the spec marks as its own inference (with R88 of the responses): every step keeps the legality of the state. -/
def Obligations.StepKeepsLegalState : Prop :=
  ∀ s t : State, LegalState s → step s = .next t → LegalState t

/-- R37, R123 (the latter the spec's own inference): every step keeps the lineage of the state vector: while seeded, the words
are a generation of some seed. -/
def Obligations.StepKeepsLineage : Prop :=
  ∀ s t : State, Lineage hardware s → step s = .next t → Lineage hardware t

/-- R6 for the invariants: the step of every configuration keeps both, the lineage being that of the configuration. -/
def Obligations.EveryConfigKeepsInvariants : Prop :=
  ∀ (cfg : Config) (s t : State), stepIn cfg s = .next t →
    (LegalState s → LegalState t) ∧ (Lineage cfg s → Lineage cfg t)

/-- The reset state meets both invariants. -/
def Obligations.ResetMeetsInvariants : Prop := LegalState State.reset ∧ ∀ cfg, Lineage cfg State.reset

/-! ## The boundary conventions -/

/-- R182, R94: the rendering of a word, most significant bit first, and the commands of `DWORD`. -/
def Obligations.RenderingOfAWord : Prop :=
  ∀ v : Word, (render32 v).length = 32 ∧ (∀ j, j < 32 → (render32 v)[j]? = some (v.getLsbD (31 - j))) ∧
    assembleLine (.dword v.toNat) = some ((render32 v).map .dbit)

/-- R181: the four bytes, least significant first. -/
def Obligations.LittleEndianBytes : Prop :=
  (∀ v : Word, ∃ b0 b1 b2 b3, bytesLe v = [b0, b1, b2, b3] ∧
    v.toNat = b0.toNat + 2 ^ 8 * b1.toNat + 2 ^ 16 * b2.toNat + 2 ^ 24 * b3.toNat) ∧
  bytesLe 0xD091BB5C#32 = [0x5C#8, 0xBB#8, 0x91#8, 0xD0#8]

/-- R186, which the spec marks as its own inference: a rendered value is exactly 16 pairs, and pairs never straddle values. -/
def Obligations.PairsNeverStraddleValues : Prop :=
  (∀ v : Word, pairsOf (render32 v) =
    (List.range 16).map (fun j => (v.getLsbD (31 - 2 * j), v.getLsbD (30 - 2 * j)))) ∧
  (∀ v : Word, (debiasLine (render32 v)).length ≤ 16) ∧
  ∀ vs : List Word, debias (renderSeq false vs) = joinLines (vs.map fun v => debiasLine (render32 v))

/-- R185: the symbols collected by the whole data flow are `debias` of the rendered draws, under every configuration. -/
def Obligations.DataFlowOutput : Prop :=
  ∀ (cfg : Config) (x : Word) (k : Nat) (s : State), s.pend = .none →
    (dataFlow cfg x k s).dout.map symbolCh =
      s.dout.map symbolCh ++ debias (renderSeq false (drawStream cfg x k)) ∧
    (dataFlow cfg x k s).pend = .none

/-- R92: the ranges of the operands, and the words of the assembled lines. -/
def Obligations.AssemblerOperandRanges : Prop :=
  (∀ n : Int, 0 ≤ n → n ≤ 4294967295 → assemble [.seed n] = some [BitVec.ofNat 36 (0x100000000 + n.toNat)]) ∧
  (∀ n : Int, n < 0 ∨ 4294967295 < n → assemble [.seed n] = none) ∧
  (∀ b : Int, assemble [.dbit b] =
    if b = 0 then some [0x400000000#36] else if b = 1 then some [0x400000001#36] else none) ∧
  assemble [.extract] = some [0x200000000#36] ∧ assemble [.dsep] = some [0x500000000#36] ∧
  assemble [.dend] = some [0x600000000#36] ∧
  ∀ n : Nat, assembleLine (.draw n) = some (List.replicate n .extract)

/-- R95: `DSTR` refuses other characters; its expansion, character by character; and the symbols the expansion emits are
`debias` of its string. -/
def Obligations.DstrEmitsDebias : Prop :=
  ∀ (cs : List Char) (s : State), s.pend = .none →
    (cs.all isFilterChar = false → assembleLine (.dstr cs) = none) ∧
    (cs.all isFilterChar = true → ∃ is str t,
      assembleLine (.dstr cs) = some is ∧
      is = cs.map (fun c => if c = '0' then .dbit false else if c = '1' then .dbit true else .dsep) ++ [.dend] ∧
      str.map charOf = cs ∧ execAll is s = .next t ∧
      t.dout.map symbolCh = s.dout.map symbolCh ++ debias str ∧ t.pend = .none)
end

