-- ==== Sys2Proof/Laws/Encoding.lean ====
section
/-! SUPPORT. A command word as its two fields: building and reading `{opc, imm}`, and masks field by field (spec/30_encoding.md
R81, R84). -/

namespace Sys2Proof

/-- The word `{opc, imm}` (R81). -/
def wordOf (opc : BitVec 4) (imm : Word) : CmdWord := opc ++ imm

/-- The word as a number. -/
theorem wordOf_toNat (o : BitVec 4) (m : Word) : (wordOf o m).toNat = o.toNat * 2 ^ 32 + m.toNat := by
  have h : (wordOf o m).toNat = o.toNat <<< 32 ||| m.toNat := BitVec.toNat_append o m
  rw [h, ← Nat.shiftLeft_add_eq_or_of_lt m.isLt, Nat.shiftLeft_eq]

@[simp] theorem opcOf_wordOf (o : BitVec 4) (m : Word) : opcOf (wordOf o m) = o := by
  apply BitVec.eq_of_toNat_eq
  have := m.isLt
  have := o.isLt
  rw [opcOf, BitVec.extractLsb'_toNat, wordOf_toNat, Nat.shiftRight_eq_div_pow]
  omega

@[simp] theorem immOf_wordOf (o : BitVec 4) (m : Word) : immOf (wordOf o m) = m := by
  apply BitVec.eq_of_toNat_eq
  have := m.isLt
  rw [immOf, BitVec.extractLsb'_toNat, wordOf_toNat, Nat.shiftRight_eq_div_pow]
  omega

/-- Every command word is the word of its two fields (R81). -/
theorem wordOf_fields (w : CmdWord) : wordOf (opcOf w) (immOf w) = w := by
  apply BitVec.eq_of_toNat_eq
  have := w.isLt
  rw [wordOf_toNat, opcOf, immOf, BitVec.extractLsb'_toNat, BitVec.extractLsb'_toNat, Nat.shiftRight_eq_div_pow,
    Nat.shiftRight_eq_div_pow]
  omega

/-- Two words are equal when their fields are. -/
theorem wordOf_inj {o p : BitVec 4} {m n : Word} : wordOf o m = wordOf p n ↔ o = p ∧ m = n := by
  refine ⟨fun h => ⟨?_, ?_⟩, fun ⟨h, k⟩ => by rw [h, k]⟩
  · simpa using congrArg opcOf h
  · simpa using congrArg immOf h

/-- A mask acts on each field by itself. -/
theorem wordOf_and (o p : BitVec 4) (m n : Word) : wordOf o m &&& wordOf p n = wordOf (o &&& p) (m &&& n) :=
  BitVec.and_append

end Sys2Proof
end

