-- ==== Sys2Proof/Laws/State.lean ====
section
/-! SUPPORT. What each update of State does to each field and to the two views of the transfers, so that no proof unfolds a
record update; and what the updates that
choose (an optional symbol) do. -/

namespace Sys2Proof.Machine

@[simp] theorem State.setInputs_words (ms : List HostMove) (s : State) : (s.setInputs ms).words = s.words := rfl
@[simp] theorem State.setInputs_index (ms : List HostMove) (s : State) : (s.setInputs ms).index = s.index := rfl
@[simp] theorem State.setInputs_seeded (ms : List HostMove) (s : State) : (s.setInputs ms).seeded = s.seeded := rfl
@[simp] theorem State.setInputs_pend (ms : List HostMove) (s : State) : (s.setInputs ms).pend = s.pend := rfl
@[simp] theorem State.setInputs_inputs (ms : List HostMove) (s : State) : (s.setInputs ms).inputs = ms := rfl
@[simp] theorem State.setInputs_transfers (ms : List HostMove) (s : State) : (s.setInputs ms).transfers = s.transfers := rfl
@[simp] theorem State.setInputs_rsps (ms : List HostMove) (s : State) : (s.setInputs ms).rsps = s.rsps := rfl
@[simp] theorem State.setInputs_dout (ms : List HostMove) (s : State) : (s.setInputs ms).dout = s.dout := rfl
@[simp] theorem State.setInputs_resets (ms : List HostMove) (s : State) : (s.setInputs ms).resets = s.resets := rfl
@[simp] theorem State.setInputs_twists (ms : List HostMove) (s : State) : (s.setInputs ms).twists = s.twists := rfl

@[simp] theorem State.setIndex_words (n : DrawIndex) (s : State) : (s.setIndex n).words = s.words := rfl
@[simp] theorem State.setIndex_index (n : DrawIndex) (s : State) : (s.setIndex n).index = n := rfl
@[simp] theorem State.setIndex_seeded (n : DrawIndex) (s : State) : (s.setIndex n).seeded = s.seeded := rfl
@[simp] theorem State.setIndex_pend (n : DrawIndex) (s : State) : (s.setIndex n).pend = s.pend := rfl
@[simp] theorem State.setIndex_inputs (n : DrawIndex) (s : State) : (s.setIndex n).inputs = s.inputs := rfl
@[simp] theorem State.setIndex_transfers (n : DrawIndex) (s : State) : (s.setIndex n).transfers = s.transfers := rfl
@[simp] theorem State.setIndex_rsps (n : DrawIndex) (s : State) : (s.setIndex n).rsps = s.rsps := rfl
@[simp] theorem State.setIndex_dout (n : DrawIndex) (s : State) : (s.setIndex n).dout = s.dout := rfl
@[simp] theorem State.setIndex_resets (n : DrawIndex) (s : State) : (s.setIndex n).resets = s.resets := rfl
@[simp] theorem State.setIndex_twists (n : DrawIndex) (s : State) : (s.setIndex n).twists = s.twists := rfl

@[simp] theorem State.setPend_words (p : Pend) (s : State) : (s.setPend p).words = s.words := rfl
@[simp] theorem State.setPend_index (p : Pend) (s : State) : (s.setPend p).index = s.index := rfl
@[simp] theorem State.setPend_seeded (p : Pend) (s : State) : (s.setPend p).seeded = s.seeded := rfl
@[simp] theorem State.setPend_pend (p : Pend) (s : State) : (s.setPend p).pend = p := rfl
@[simp] theorem State.setPend_inputs (p : Pend) (s : State) : (s.setPend p).inputs = s.inputs := rfl
@[simp] theorem State.setPend_transfers (p : Pend) (s : State) : (s.setPend p).transfers = s.transfers := rfl
@[simp] theorem State.setPend_rsps (p : Pend) (s : State) : (s.setPend p).rsps = s.rsps := rfl
@[simp] theorem State.setPend_dout (p : Pend) (s : State) : (s.setPend p).dout = s.dout := rfl
@[simp] theorem State.setPend_resets (p : Pend) (s : State) : (s.setPend p).resets = s.resets := rfl
@[simp] theorem State.setPend_twists (p : Pend) (s : State) : (s.setPend p).twists = s.twists := rfl

@[simp] theorem State.respond_words (st : Status) (d : Word) (s : State) : (s.respond st d).words = s.words := rfl
@[simp] theorem State.respond_index (st : Status) (d : Word) (s : State) : (s.respond st d).index = s.index := rfl
@[simp] theorem State.respond_seeded (st : Status) (d : Word) (s : State) : (s.respond st d).seeded = s.seeded := rfl
@[simp] theorem State.respond_pend (st : Status) (d : Word) (s : State) : (s.respond st d).pend = s.pend := rfl
@[simp] theorem State.respond_inputs (st : Status) (d : Word) (s : State) : (s.respond st d).inputs = s.inputs := rfl
@[simp] theorem State.respond_transfers (st : Status) (d : Word) (s : State) :
    (s.respond st d).transfers = s.transfers ++ [.rsp { status := st, data := d }] := rfl
@[simp] theorem State.respond_rsps (st : Status) (d : Word) (s : State) :
    (s.respond st d).rsps = s.rsps ++ [{ status := st, data := d }] := by
  simp [State.rsps, Transfer.response]
@[simp] theorem State.respond_dout (st : Status) (d : Word) (s : State) : (s.respond st d).dout = s.dout := by
  simp [State.dout, Transfer.symbol]
@[simp] theorem State.respond_resets (st : Status) (d : Word) (s : State) : (s.respond st d).resets = s.resets := rfl
@[simp] theorem State.respond_twists (st : Status) (d : Word) (s : State) : (s.respond st d).twists = s.twists := rfl

@[simp] theorem State.emit_words (y : Symbol) (s : State) : (s.emit y).words = s.words := rfl
@[simp] theorem State.emit_index (y : Symbol) (s : State) : (s.emit y).index = s.index := rfl
@[simp] theorem State.emit_seeded (y : Symbol) (s : State) : (s.emit y).seeded = s.seeded := rfl
@[simp] theorem State.emit_pend (y : Symbol) (s : State) : (s.emit y).pend = s.pend := rfl
@[simp] theorem State.emit_inputs (y : Symbol) (s : State) : (s.emit y).inputs = s.inputs := rfl
@[simp] theorem State.emit_transfers (y : Symbol) (s : State) : (s.emit y).transfers = s.transfers ++ [.dout y] := rfl
@[simp] theorem State.emit_rsps (y : Symbol) (s : State) : (s.emit y).rsps = s.rsps := by
  simp [State.rsps, Transfer.response]
@[simp] theorem State.emit_dout (y : Symbol) (s : State) : (s.emit y).dout = s.dout ++ [y] := by
  simp [State.dout, Transfer.symbol]
@[simp] theorem State.emit_resets (y : Symbol) (s : State) : (s.emit y).resets = s.resets := rfl
@[simp] theorem State.emit_twists (y : Symbol) (s : State) : (s.emit y).twists = s.twists := rfl

@[simp] theorem State.raise_words (st : Status) (s : State) : (s.raise st).words = s.words := rfl
@[simp] theorem State.raise_index (st : Status) (s : State) : (s.raise st).index = s.index := rfl
@[simp] theorem State.raise_seeded (st : Status) (s : State) : (s.raise st).seeded = s.seeded := rfl
@[simp] theorem State.raise_pend (st : Status) (s : State) : (s.raise st).pend = s.pend := rfl
@[simp] theorem State.raise_inputs (st : Status) (s : State) : (s.raise st).inputs = s.inputs := rfl
@[simp] theorem State.raise_transfers (st : Status) (s : State) :
    (s.raise st).transfers = s.transfers ++ [.rsp { status := st, data := 0#32 }] := rfl
@[simp] theorem State.raise_rsps (st : Status) (s : State) : (s.raise st).rsps = s.rsps ++ [{ status := st, data := 0#32 }] :=
  State.respond_rsps st 0#32 s
@[simp] theorem State.raise_dout (st : Status) (s : State) : (s.raise st).dout = s.dout := State.respond_dout st 0#32 s
@[simp] theorem State.raise_resets (st : Status) (s : State) : (s.raise st).resets = s.resets := rfl
@[simp] theorem State.raise_twists (st : Status) (s : State) : (s.raise st).twists = s.twists := rfl

@[simp] theorem State.hardReset_words (s : State) : (s.hardReset).words = freshWords (s.resets + 1) := rfl
@[simp] theorem State.hardReset_index (s : State) : (s.hardReset).index = Fin.last 624 := rfl
@[simp] theorem State.hardReset_seeded (s : State) : (s.hardReset).seeded = false := rfl
@[simp] theorem State.hardReset_pend (s : State) : (s.hardReset).pend = .none := rfl
@[simp] theorem State.hardReset_inputs (s : State) : (s.hardReset).inputs = s.inputs := rfl
@[simp] theorem State.hardReset_transfers (s : State) : (s.hardReset).transfers = s.transfers := rfl
@[simp] theorem State.hardReset_rsps (s : State) : (s.hardReset).rsps = s.rsps := rfl
@[simp] theorem State.hardReset_dout (s : State) : (s.hardReset).dout = s.dout := rfl
@[simp] theorem State.hardReset_resets (s : State) : (s.hardReset).resets = s.resets + 1 := rfl
@[simp] theorem State.hardReset_twists (s : State) : (s.hardReset).twists = s.twists := rfl

@[simp] theorem twist_words (cfg : Config) (s : State) : (twist cfg s).words = twistVec cfg s.words := rfl
@[simp] theorem twist_index (cfg : Config) (s : State) : (twist cfg s).index = 0 := rfl
@[simp] theorem twist_seeded (cfg : Config) (s : State) : (twist cfg s).seeded = s.seeded := rfl
@[simp] theorem twist_pend (cfg : Config) (s : State) : (twist cfg s).pend = s.pend := rfl
@[simp] theorem twist_inputs (cfg : Config) (s : State) : (twist cfg s).inputs = s.inputs := rfl
@[simp] theorem twist_transfers (cfg : Config) (s : State) : (twist cfg s).transfers = s.transfers := rfl
@[simp] theorem twist_rsps (cfg : Config) (s : State) : (twist cfg s).rsps = s.rsps := rfl
@[simp] theorem twist_dout (cfg : Config) (s : State) : (twist cfg s).dout = s.dout := rfl
@[simp] theorem twist_resets (cfg : Config) (s : State) : (twist cfg s).resets = s.resets := rfl
@[simp] theorem twist_twists (cfg : Config) (s : State) : (twist cfg s).twists = s.twists + 1 := rfl

@[simp] theorem seed_words (x : Word) (s : State) : (seed x s).words = seedVec s.words x := rfl
@[simp] theorem seed_index (x : Word) (s : State) : (seed x s).index = Fin.last 624 := rfl
@[simp] theorem seed_seeded (x : Word) (s : State) : (seed x s).seeded = true := rfl
@[simp] theorem seed_pend (x : Word) (s : State) : (seed x s).pend = s.pend := rfl
@[simp] theorem seed_inputs (x : Word) (s : State) : (seed x s).inputs = s.inputs := rfl
@[simp] theorem seed_transfers (x : Word) (s : State) :
    (seed x s).transfers = s.transfers ++ [.rsp { status := .ok, data := 0#32 }] := rfl
@[simp] theorem seed_rsps (x : Word) (s : State) : (seed x s).rsps = s.rsps ++ [{ status := .ok, data := 0#32 }] :=
  State.respond_rsps .ok 0#32 { s with words := seedVec s.words x, index := Fin.last 624, seeded := true }
@[simp] theorem seed_dout (x : Word) (s : State) : (seed x s).dout = s.dout :=
  State.respond_dout .ok 0#32 { s with words := seedVec s.words x, index := Fin.last 624, seeded := true }
@[simp] theorem seed_resets (x : Word) (s : State) : (seed x s).resets = s.resets := rfl
@[simp] theorem seed_twists (x : Word) (s : State) : (seed x s).twists = s.twists := rfl

@[simp] theorem State.emitOpt_words (y : Option Symbol) (s : State) : (s.emitOpt y).words = s.words := by
  cases y <;> rfl
@[simp] theorem State.emitOpt_index (y : Option Symbol) (s : State) : (s.emitOpt y).index = s.index := by
  cases y <;> rfl
@[simp] theorem State.emitOpt_seeded (y : Option Symbol) (s : State) : (s.emitOpt y).seeded = s.seeded := by
  cases y <;> rfl
@[simp] theorem State.emitOpt_pend (y : Option Symbol) (s : State) : (s.emitOpt y).pend = s.pend := by
  cases y <;> rfl
@[simp] theorem State.emitOpt_inputs (y : Option Symbol) (s : State) : (s.emitOpt y).inputs = s.inputs := by
  cases y <;> rfl
@[simp] theorem State.emitOpt_transfers (y : Option Symbol) (s : State) :
    (s.emitOpt y).transfers = s.transfers ++ (y.map .dout).toList := by
  cases y <;> simp [State.emitOpt]
@[simp] theorem State.emitOpt_rsps (y : Option Symbol) (s : State) : (s.emitOpt y).rsps = s.rsps := by
  cases y <;> simp [State.emitOpt]
@[simp] theorem State.emitOpt_dout (y : Option Symbol) (s : State) : (s.emitOpt y).dout = s.dout ++ y.toList := by
  cases y <;> simp [State.emitOpt]
@[simp] theorem State.emitOpt_resets (y : Option Symbol) (s : State) : (s.emitOpt y).resets = s.resets := by
  cases y <;> rfl
@[simp] theorem State.emitOpt_twists (y : Option Symbol) (s : State) : (s.emitOpt y).twists = s.twists := by
  cases y <;> rfl

/-- The moves to come are put back and taken off again. -/
@[simp] theorem State.setInputs_setInputs (ms ns : List HostMove) (s : State) :
    (s.setInputs ms).setInputs ns = s.setInputs ns := rfl

/-- Taking the moves to be what they are changes nothing. -/
@[simp] theorem State.setInputs_self (s : State) : s.setInputs s.inputs = s := rfl

end Sys2Proof.Machine
end

