-- ==== Sys2Proof/Laws/StateArray.lean ====
section
/-! SUPPORT. The laws of the state array: a read after a write, the frame of a write, the index forms, and that the array keeps
its 624 words (spec/10_state.md R20, R33 (a); spec/20_memory.md R50, R52, R55). -/

namespace Sys2Proof.Machine

@[simp] theorem posOf_val (n : Nat) : (posOf n).val = n % 624 := rfl

theorem posOf_val_of_lt {n : Nat} (h : n < 624) : (posOf n).val = n := Nat.mod_eq_of_lt h

theorem posOf_of_lt {n : Nat} (h : n < 624) : posOf n = ⟨n, h⟩ := Fin.ext (Nat.mod_eq_of_lt h)

@[simp] theorem posOf_pos (i : Pos) : posOf i.val = i := Fin.ext (Nat.mod_eq_of_lt i.isLt)

@[simp] theorem nextPos_val (i : Pos) : (nextPos i).val = (i.val + 1) % 624 := rfl

@[simp] theorem offsetPos_val (i : Pos) : (offsetPos i).val = (i.val + 397) % 624 := rfl

/-- Reading the word just written gives it back. -/
@[simp] theorem readWord_writeWord_self (v : StateVec) (i : Pos) (w : Word) : readWord (writeWord v i w) i = w := by
  simp [readWord, writeWord]

/-- A write leaves every other word alone. -/
theorem readWord_writeWord_ne (v : StateVec) {i j : Pos} (w : Word) (h : i ≠ j) :
    readWord (writeWord v i w) j = readWord v j := by
  have : i.val ≠ j.val := fun e => h (Fin.ext e)
  simp [readWord, writeWord, this]

/-- Both cases of a read after a write. -/
theorem readWord_writeWord (v : StateVec) (i j : Pos) (w : Word) :
    readWord (writeWord v i w) j = if i = j then w else readWord v j := by
  split
  · next h => subst h; simp
  · next h => exact readWord_writeWord_ne v w h

/-- Two vectors with the same words are the same. -/
theorem stateVec_ext {v w : StateVec} (h : ∀ i : Pos, readWord v i = readWord w i) : v = w :=
  Vector.ext fun i hi => h ⟨i, hi⟩

/-- A read at a numeral is the vector's own read there. -/
theorem readWord_eq_getElem (v : StateVec) (i : Nat) (h : i < 624) : readWord v ⟨i, h⟩ = v[i] := rfl

/-- A write keeps the form of the array: exactly 624 words (R33 (a)). -/
theorem writeWord_length (v : StateVec) (i : Pos) (w : Word) : (writeWord v i w).toList.length = 624 := by simp

/-- Every word of the all-zero vector is zero. -/
@[simp] theorem readWord_replicate (w : Word) (i : Pos) : readWord (Vector.replicate 624 w) i = w := by
  simp [readWord]

end Sys2Proof.Machine
end

