-- ==== Sys2Proof/Laws/MtUnit.lean ====
section
/-! SUPPORT. What the MT unit's loops and operations do: the frames of the seeding and twist loops, and the cases of `EXTRACT`
(spec/40_mt_core.md R110 to R112). -/

namespace Sys2Proof.Machine

/-- One seeding iteration writes one word. -/
theorem readWord_seedStep (v : StateVec) (n : Nat) (j : Pos) :
    readWord (seedStep v n) j =
      if posOf (n + 1) = j then seedWord (readWord v (posOf n)) (n + 1) else readWord v j :=
  readWord_writeWord _ _ _ _

/-- The first `n` seeding iterations leave the words above `n` alone. -/
theorem readWord_seedLoop_above (v : StateVec) {n : Nat} (j : Pos) (h : n < j.val) :
    readWord (seedLoop v n) j = readWord v j := by
  induction n with
  | zero => rfl
  | succ n ih =>
    have hne : posOf (n + 1) ≠ j := by
      intro e
      have := congrArg Fin.val e
      rw [posOf_val_of_lt (by have := j.isLt; omega)] at this
      omega
    rw [seedLoop, readWord_seedStep, if_neg hne, ih (by omega)]

/-- A word at or below `n` is final after `n` seeding iterations. -/
theorem readWord_seedLoop_stable (v : StateVec) {n m : Nat} (j : Pos) (hn : j.val ≤ n) (hm : n ≤ m) (h : m ≤ 623) :
    readWord (seedLoop v m) j = readWord (seedLoop v n) j := by
  induction m, hm using Nat.le_induction with
  | base => rfl
  | succ m hnm ih =>
    have hne : posOf (m + 1) ≠ j := by
      intro e
      have := congrArg Fin.val e
      rw [posOf_val_of_lt (by omega)] at this
      omega
    rw [seedLoop, readWord_seedStep, if_neg hne, ih (by omega)]

/-- One twist iteration writes one word. -/
theorem readWord_twistStep (cfg : Config) (v : StateVec) (i j : Pos) :
    readWord (twistStep cfg v i) j =
      if i = j then
        readWord v (offsetPos i) ^^^ mag cfg (mix (readWord v i) (readWord v (nextPos i)))
      else readWord v j :=
  readWord_writeWord _ _ _ _

/-- The first `n` twist iterations leave the words from `n` on alone. -/
theorem readWord_twistLoop_above (cfg : Config) (v : StateVec) {n : Nat} (j : Pos) (h : n ≤ j.val) :
    readWord (twistLoop cfg v n) j = readWord v j := by
  induction n with
  | zero => rfl
  | succ n ih =>
    have hne : posOf n ≠ j := by
      intro e
      have := congrArg Fin.val e
      rw [posOf_val_of_lt (by have := j.isLt; omega)] at this
      omega
    rw [twistLoop, readWord_twistStep, if_neg hne, ih (by omega)]

/-- A word below `n` is final after `n` twist iterations. -/
theorem readWord_twistLoop_stable (cfg : Config) (v : StateVec) {n m : Nat} (j : Pos) (hn : j.val < n) (hm : n ≤ m)
    (h : m ≤ 624) : readWord (twistLoop cfg v m) j = readWord (twistLoop cfg v n) j := by
  induction m, hm using Nat.le_induction with
  | base => rfl
  | succ m hnm ih =>
    have hne : posOf m ≠ j := by
      intro e
      have := congrArg Fin.val e
      rw [posOf_val_of_lt (by omega)] at this
      omega
    rw [twistLoop, readWord_twistStep, if_neg hne, ih (by omega)]

/-- What iteration `i` of a whole twist writes, in terms of the loop's state when it runs: the word at `i` is final then. -/
theorem readWord_twistVec (cfg : Config) (v : StateVec) (i : Pos) :
    readWord (twistVec cfg v) i =
      readWord (twistLoop cfg v i.val) (offsetPos i) ^^^
        mag cfg (mix (readWord v i) (readWord (twistLoop cfg v i.val) (nextPos i))) := by
  have hi : i.val + 1 ≤ 624 := i.isLt
  unfold twistVec
  rw [readWord_twistLoop_stable cfg v i (Nat.lt_succ_self i.val) hi (Nat.le_refl 624), twistLoop,
    readWord_twistStep, posOf_pos, if_pos rfl, readWord_twistLoop_above cfg v i (Nat.le_refl _)]

/-- `EXTRACT` on an unseeded unit is error entry. -/
theorem extract_unseeded (cfg : Config) {s : State} (h : s.seeded = false) : extract cfg s = s.raise .errUnseeded := by
  simp [extract, h]

/-- `EXTRACT` on a seeded, exhausted unit twists first and draws word 0. -/
theorem extract_exhausted (cfg : Config) {s : State} (h : s.seeded = true) (hi : s.index.val = 624) :
    extract cfg s = drawAt cfg 0 (twist cfg s) := by
  simp [extract, h, hi]

/-- `EXTRACT` on a seeded unit that is not exhausted draws the word at the index. -/
theorem extract_within (cfg : Config) {s : State} (h : s.seeded = true) (hi : s.index.val < 624) :
    extract cfg s = drawAt cfg ⟨s.index.val, hi⟩ s := by
  simp [extract, h, Nat.ne_of_lt hi]

/-- Everything `EXTRACT` can do. -/
theorem extract_cases (cfg : Config) (s : State) :
    (s.seeded = false ∧ extract cfg s = s.raise .errUnseeded) ∨
    (s.seeded = true ∧ s.index.val = 624 ∧ extract cfg s = drawAt cfg 0 (twist cfg s)) ∨
    (s.seeded = true ∧ ∃ h : s.index.val < 624, extract cfg s = drawAt cfg ⟨s.index.val, h⟩ s) := by
  cases hs : s.seeded with
  | false => exact .inl ⟨rfl, extract_unseeded cfg hs⟩
  | true =>
    by_cases hi : s.index.val = 624
    · exact .inr (.inl ⟨rfl, hi, extract_exhausted cfg hs hi⟩)
    · have hlt : s.index.val < 624 := by have := s.index.isLt; omega
      exact .inr (.inr ⟨rfl, hlt, extract_within cfg hs hlt⟩)

end Sys2Proof.Machine
end

