-- ==== Sys2Proof/Laws/Machine.lean ====
section
/-! SUPPORT. What a step and a run can do: every meaning answers a next state, runs as functions on states, and the cases of a
move of the host (spec/00_scope.md R11, spec/20_memory.md R58). -/

namespace Sys2Proof.Machine

/-- One answer more is one response more. -/
theorem rsps_of_answer {s t : State} {ys : List Symbol} {r : Response} (h : t.transfers = s.transfers ++ answer ys r) :
    t.rsps = s.rsps ++ [r] := by
  have none : (ys.map Transfer.dout).filterMap Transfer.response = [] := by
    simp [List.filterMap_map, Function.comp_def, Transfer.response]
  simp [State.rsps, h, answer, none, Transfer.response]

/-- One answer more is its symbols more. -/
theorem dout_of_answer {s t : State} {ys : List Symbol} {r : Response} (h : t.transfers = s.transfers ++ answer ys r) :
    t.dout = s.dout ++ ys := by
  have all : (ys.map Transfer.dout).filterMap Transfer.symbol = ys := by
    simp [List.filterMap_map, Function.comp_def, Transfer.symbol]
  simp [State.dout, h, answer, all, Transfer.symbol]

/-- Every command completes, under every configuration (R11). -/
theorem execIn_eq_perform (cfg : Config) (i : Instr) (s : State) : execIn cfg i s = .next (perform cfg i s) := by
  cases i <;> rfl

/-- This hardware's dispatch is the machine at its configuration (R6). -/
theorem exec_eq_execIn : exec = execIn hardware := by
  funext i s
  cases i <;> rfl

theorem accept_eq_acceptIn : accept = acceptIn hardware := by rw [accept, exec_eq_execIn, acceptIn]

theorem step_eq_stepIn (s : State) : step s = stepIn hardware s := by rw [step, exec_eq_execIn, stepIn]

theorem execAll_eq_execAllIn : execAll = execAllIn hardware := by rw [execAll, exec_eq_execIn, execAllIn]

/-- A run under a configuration never stops early: it is the composition of the commands' effects (R58). -/
theorem execAllIn_eq_performAll (cfg : Config) (is : List Instr) (s : State) :
    execAllIn cfg is s = .next (performAll cfg is s) := by
  induction is generalizing s with
  | nil => rfl
  | cons i is ih => cases i <;> exact ih _

/-- A run on this hardware never stops early (R58). -/
theorem execAll_eq_performAll (is : List Instr) (s : State) :
    execAll is s = .next (performAll hardware is s) := by
  rw [execAll_eq_execAllIn, execAllIn_eq_performAll]

theorem performAll_append (cfg : Config) (is js : List Instr) (s : State) :
    performAll cfg (is ++ js) s = performAll cfg js (performAll cfg is s) := by
  induction is generalizing s with
  | nil => rfl
  | cons i is ih => exact ih _

/-- A step with moves to come is the next move, the rest left to come. -/
theorem stepIn_cons (cfg : Config) {s : State} {m : HostMove} {rest : List HostMove} (h : s.inputs = m :: rest) :
    stepIn cfg s = takeMoveBy (execIn cfg) m (s.setInputs rest) := by
  simp [stepIn, stepBy, h]

/-- A step without moves to come. -/
theorem stepIn_nil (cfg : Config) {s : State} (h : s.inputs = []) : stepIn cfg s = .next s := by simp [stepIn, stepBy, h]

theorem step_cons {s : State} {m : HostMove} {rest : List HostMove} (h : s.inputs = m :: rest) :
    step s = takeMoveBy exec m (s.setInputs rest) := by
  simp [step, stepBy, h]

theorem step_nil {s : State} (h : s.inputs = []) : step s = .next s := by simp [step, stepBy, h]

/-- Everything accepting a word can do: perform the command it decodes to, or answer `ERR_ILLEGAL`. -/
theorem acceptIn_cases (cfg : Config) (w : CmdWord) (s : State) :
    (∃ i, decode w = .command i ∧ acceptIn cfg w s = .next (perform cfg i s)) ∨
    (∃ why, decode w = .illegal why ∧ acceptIn cfg w s = .next (s.raise .errIllegal)) := by
  unfold acceptIn acceptBy
  cases h : decode w with
  | command i => exact .inl ⟨i, rfl, execIn_eq_perform cfg i s⟩
  | illegal why => exact .inr ⟨why, rfl, rfl⟩

theorem accept_cases (w : CmdWord) (s : State) :
    (∃ i, decode w = .command i ∧ accept w s = .next (perform hardware i s)) ∨
    (∃ why, decode w = .illegal why ∧ accept w s = .next (s.raise .errIllegal)) := by
  rw [accept_eq_acceptIn]
  exact acceptIn_cases hardware w s

end Sys2Proof.Machine
end

