-- ==== Sys2Proof/Laws/PerInstr.lean ====
section
/-! SUPPORT. One lemma per constructor of `Instr`: the encoding of a command lies in the command's row of the opcode map
(spec/30_encoding.md R84). -/

namespace Sys2Proof.Laws

/-- The encoding of `i` selects the row of `i` (R84). -/
abbrev EncodeRow.Statement (i : Instr) : Prop := (rowOf i).Selects (encode i)

theorem EncodeRow.seed (s : Word) : EncodeRow.Statement (.seed s) := by
  show wordOf 0x1#4 s &&& wordOf 0xF#4 0#32 = wordOf 0x1#4 0#32
  rw [wordOf_and, BitVec.and_zero]
  decide

theorem EncodeRow.extract : EncodeRow.Statement .extract := by decide

theorem EncodeRow.dbit (b : Bool) : EncodeRow.Statement (.dbit b) := by cases b <;> decide

theorem EncodeRow.dsep : EncodeRow.Statement .dsep := by decide

theorem EncodeRow.dend : EncodeRow.Statement .dend := by decide

end Sys2Proof.Laws
end

