-- ==== Sys2Proof/Tests/Slice0.lean ====
section
/-! SUPPORT. The model's own tests: ill-formed terms refused, words written out bit by bit from spec/30_encoding.md, one-step
tests whose expected values are those of spec/95_test_vectors.md, and for every statement with hypotheses a witness that meets
them. -/

namespace Sys2Proof.Tests

open Sys2Proof Sys2Proof.Machine

/-! ## Helpers -/

/-- A state whose words are all `w`, with nothing received yet. -/
def plain (w : Word) (index : DrawIndex) (seeded : Bool) (pend : Pend) (inputs : List HostMove) : State where
  twists := 0
  resets := 0
  transfers := []
  inputs := inputs
  pend := pend
  seeded := seeded
  index := index
  words := Vector.replicate 624 w

/-- A seeded state in the middle of a generation. -/
def running : State := plain 1#32 5 true .none []

/-- An unseeded state with the index and the flag as after reset. -/
def fresh : State := plain 0#32 624 false .none []

/-- Whether the outcome is a next state with the property. -/
def after (o : Host.Outcome State Fault Refusal) (p : State → Bool) : Bool :=
  match o with
  | .next t => p t
  | .fault _ => false
  | .refused _ => false

/-- The words of `SEED 5489` that the first twist reads for positions 0, 1 and 227 (V-SD1), the others zero. -/
def sparse : StateVec :=
  ((((((Vector.replicate 624 0#32).set 0 0x00001571#32).set 1 0x4D98EE96#32).set 2 0xAF25F095#32).set 227
    0x9A49043D#32).set 228 0xA3CD64BF#32).set 397 0xBDC68D6C#32 |>.set 398 0x6707ABF4#32

/-! ## Ill-formed lines (R92 to R95) -/

theorem test_wf_seed_too_large : AsmLine.wf (.seed 4294967296) = false := by decide
theorem test_wf_seed_negative : AsmLine.wf (.seed (-1)) = false := by decide
theorem test_wf_dbit_two : AsmLine.wf (.dbit 2) = false := by decide
theorem test_wf_dbit_negative : AsmLine.wf (.dbit (-1)) = false := by decide
theorem test_wf_draw_negative : AsmLine.wf (.draw (-1)) = false := by decide
theorem test_wf_dword_too_large : AsmLine.wf (.dword 4294967296) = false := by decide
theorem test_wf_dword_negative : AsmLine.wf (.dword (-1)) = false := by decide
theorem test_wf_dstr_other_character : AsmLine.wf (.dstr ['0', ' ', '1']) = false := by decide
theorem test_wf_legal_lines :
    [AsmLine.seed 4294967295, .seed 0, .extract, .dbit 0, .dbit 1, .dsep, .dend, .draw 0, .dword 4294967295,
      .dstr ['0', '\n', '1'], .dstr []].all AsmLine.wf = true := by decide

/-! ## Words written out from the encoding (R81 to R86; 95_test_vectors.md section 2.8) -/

/-- Format I, `opc = 0x1`: V-EN1. -/
theorem test_decode_seed :
    decode (0b0001#4 ++ 0b00000000000000000001010101110001#32) = .command (.seed 5489#32) := by decide
/-- Format I: every operand bit counts, bit 31 the highest. -/
theorem test_decode_seed_top_bit :
    decode (0b0001#4 ++ 0b10000000000000000000000000000000#32) = .command (.seed 2147483648#32) := by decide
/-- Format Z, `opc = 0x2`: V-EN4. -/
theorem test_decode_extract : decode (0b0010#4 ++ 0b00000000000000000000000000000000#32) = .command .extract := by decide
/-- Format B, `opc = 0x4`: V-EN8. -/
theorem test_decode_dbit_zero :
    decode (0b0100#4 ++ 0b00000000000000000000000000000000#32) = .command (.dbit false) := by decide
/-- Format B: V-EN9. -/
theorem test_decode_dbit_one :
    decode (0b0100#4 ++ 0b00000000000000000000000000000001#32) = .command (.dbit true) := by decide
/-- Format Z, `opc = 0x5`: V-EN11. -/
theorem test_decode_dsep : decode (0b0101#4 ++ 0b00000000000000000000000000000000#32) = .command .dsep := by decide
/-- Format Z, `opc = 0x6`: V-EN12. -/
theorem test_decode_dend : decode (0b0110#4 ++ 0b00000000000000000000000000000000#32) = .command .dend := by decide
/-- Each constructor's encoding, as the word of the table. -/
theorem test_encode_words :
    [Instr.seed 5489#32, .extract, .dbit false, .dbit true, .dsep, .dend].map encode =
      [0x100001571#36, 0x200000000#36, 0x400000000#36, 0x400000001#36, 0x500000000#36, 0x600000000#36] := by decide
/-- V-EN5 to V-EN7, V-EN10, V-EN13 and V-EN14: illegal, each by its name. -/
theorem test_decode_illegal :
    [0x200000001#36, 0x000000000#36, 0x300000000#36, 0x400000002#36, 0x600000001#36, 0x700000000#36, 0x800000000#36,
      0xF00000000#36, 0xFFFFFFFFF#36].map decode =
    [.illegal .operandNotZero, .illegal (.unassignedOpcode 0x0#4), .illegal (.unassignedOpcode 0x3#4),
      .illegal .operandNotZero, .illegal .operandNotZero, .illegal (.unassignedOpcode 0x7#4),
      .illegal (.unassignedOpcode 0x8#4), .illegal (.unassignedOpcode 0xF#4), .illegal (.unassignedOpcode 0xF#4)] := by
  decide
/-- A table word of 36 or of 40 bits; a set bit 36 makes it no command word. -/
theorem test_table_words :
    decodeTableWord 36 0x200000000 = some .extract ∧ decodeTableWord 40 0x0500000000 = some .dsep ∧
      decodeTableWord 40 0x1200000000 = none := by decide

/-! ## One step each -/

/-- V-SD4: the product wraps. -/
theorem test_seed_wraps :
    after (exec (.seed 0xFFFFFFFF#32) running) (fun t => t.words[1] == 0x4FE1DA6D#32 && t.words[2] == 0xEAF2F89E#32) = true := by
  decide +kernel
/-- V-SD1: seed 5489. -/
theorem test_seed_5489 :
    after (exec (.seed 5489#32) fresh)
      (fun t => t.words[1] == 0x4D98EE96#32 && t.words[3] == 0xAFD9BA96#32 && t.index.val == 624 && t.seeded) = true := by
  decide +kernel
/-- V-TM8 and V-TM8b at the last position: the drawn value under either shift, and the index left at 624 with no twist. -/
theorem test_extract_last_word :
    (after (exec .extract (plain 0x9B0AFA27#32 623 true .none []))
      (fun t => t.rsps == [okResponse 0xD091BB5C#32] && t.index.val == 624 && t.twists == 0) &&
    after (execIn .docS11 .extract (plain 0x9B0AFA27#32 623 true .none []))
      (fun t => t.rsps == [okResponse 0xFA95E5DD#32])) = true := by decide +kernel
/-- V-TW1, V-TW2, V-TW4 in one draw: the first draw of `SEED 5489`, whose twist takes its third operand from the rewritten words
at position 227. -/
theorem test_extract_twists_in_place :
    after (exec .extract { plain 0#32 624 true .none [] with words := sparse })
      (fun t => t.rsps == [okResponse 0xD091BB5C#32] && t.words[0] == 0x9B0AFA27#32 && t.words[1] == 0xE99AE361#32 &&
        t.words[227] == 0x53E3F8A7#32 && t.index.val == 1 && t.twists == 1) = true := by decide +kernel
/-- V-DB8: the pair `01` emits its first character, no later than the response (R80). -/
theorem test_dbit_zero_one : after (exec (.dbit true) (plain 0#32 624 false .p0 []))
    (fun t => t.transfers == [.dout .s0, .rsp (okResponse 0#32)] && t.pend == .none) = true := by decide
/-- V-DB11: the pair `11` emits nothing. -/
theorem test_dbit_one_one : after (exec (.dbit true) (plain 0#32 624 false .p1 []))
    (fun t => t.dout == [] && t.pend == .none) = true := by decide
/-- V-DB15: a leftover is dropped at the separator, which is sent no later than the response (R80). -/
theorem test_dsep_drops_leftover : after (exec .dsep (plain 0#32 624 false .p1 []))
    (fun t => t.transfers == [.dout .sep, .rsp (okResponse 0#32)] && t.pend == .none) = true := by decide
/-- V-DB3: `DEND` drops a leftover and emits nothing. -/
theorem test_dend_drops_leftover : after (exec .dend (plain 0#32 624 false .p0 []))
    (fun t => t.dout == [] && t.pend == .none && t.rsps == [okResponse 0#32]) = true := by decide
/-- V-EN5 and R204: an illegal word on an unseeded unit is answered `ERR_ILLEGAL`. -/
theorem test_step_illegal_word : after (step (fresh.setInputs [.offer 0x200000001#36]))
    (fun t => t.rsps == [{ status := .errIllegal, data := 0#32 }] && !t.seeded && t.inputs == []) = true := by decide
/-- V-EX4, from reset itself. -/
theorem test_step_extract_after_reset : after (step (State.reset.withFetchWord 40 0x200000000))
    (fun t => t.rsps == [{ status := .errUnseeded, data := 0#32 }] && !t.seeded && t.index.val == 624) = true := by decide

/-! ## Operations and host conventions -/

/-- V-TM2, V-TM3, V-TM4, V-TM6, and V-TM5b for the other shift. -/
theorem test_temper :
    [0x00000001#32, 0x80000000#32, 0xFFFFFFFF#32, 0xDEADBEEF#32].map (temper .doc) =
      [0x00400091#32, 0x88102204#32, 0x6FE01BF8#32, 0xE016575D#32] ∧
    temper .docS11 0x12345678#32 = 0x8272206E#32 := by decide
/-- V-TW1 and V-TW2: `mix` and `mag` of an even and of an odd word. -/
theorem test_mix_mag :
    mix 0x00001571#32 0x4D98EE96#32 = 0x4D98EE96#32 ∧ mag .doc 0x4D98EE96#32 = 0x26CC774B#32 ∧
      mix 0x4D98EE96#32 0xAF25F095#32 = 0x2F25F095#32 ∧ mag .doc 0x2F25F095#32 = 0x8E9D4895#32 := by decide
/-- V-RN1: the debiased rendering. -/
theorem test_debias_rendering :
    debiasLine (render32 0xD091BB5C#32) = [false, true, false, false, true, true, false, false] := by decide
/-- V-DB16: three lines, the last one empty. -/
theorem test_debias_lines :
    debias [.bit true, .bit false, .sep, .bit false, .bit true, .sep, .bit true, .bit true] =
      [.bit true, .sep, .bit false, .sep] := by decide
/-- R92: a decimal operand with a comment, and a hexadecimal one. -/
theorem test_read_lines :
    readLine ['S', 'E', 'E', 'D', ' ', '5', '4', '8', '9', ' ', ';', 'x'] = some (some (.seed 5489)) ∧
      readLine ['S', 'E', 'E', 'D', ' ', '0', 'x', '1', 'F'] = some (some (.seed 31)) ∧
      readLine ['s', 'e', 'e', 'd', ' ', '1'] = none := by decide
/-- R95: the string of `DSTR`, with an escaped separator. -/
theorem test_read_dstr :
    assembleText [['D', 'S', 'T', 'R', ' ', '"', '0', '1', '\\', 'n', '"']] =
      some [0x400000000#36, 0x400000001#36, 0x500000000#36, 0x600000000#36] := by decide

/-! ## Witnesses: states and operands that meet the statements' hypotheses -/

theorem witness_ResetDuringRun :
    (running.setInputs [.rst Option.none]).inputs = .rst Option.none :: [] ∧
      (running.setInputs [.rst (some 0x200000000#36), .silent]).inputs = .rst (some 0x200000000#36) :: [.silent] ∧
      (running.setInputs [.rstDuring 0x500000000#36]).inputs = .rstDuring 0x500000000#36 :: [] := ⟨rfl, rfl, rfl⟩

theorem witness_OnlyResetClearsSeeded : ∃ (s t : State) (m : HostMove) (rest : List HostMove),
    s.inputs = m :: rest ∧ step s = .next t ∧ s.seeded = true ∧ t.seeded = false :=
  ⟨running.setInputs [.rst Option.none], _, _, _, rfl, rfl, rfl, rfl⟩

theorem witness_NoCommandNoChange :
    running.inputs = [] ∧ (running.setInputs [.silent, .silent]).inputs = .silent :: [.silent] := ⟨rfl, rfl⟩

/-- A legal word and an illegal one. -/
theorem witness_StepRunsDecodedInstr :
    (running.setInputs [.offer 0x400000001#36]).inputs = .offer 0x400000001#36 :: [] ∧
      decode 0x400000001#36 = .command (.dbit true) ∧
      (running.setInputs [.offer 0x400000002#36]).inputs = .offer 0x400000002#36 :: [] ∧
      decode 0x400000002#36 = .illegal .operandNotZero := by decide

theorem witness_TableWordRunsNext :
    decodeTableWord 40 0x1FFFFFFFF = some (.seed 4294967295#32) ∧ decodeTableWord 36 0x600000000 = some .dend := by decide

theorem witness_OfferedWordsRunInOrder :
    (running.setInputs [.offer 0x200000000#36, .offer 0x500000000#36, .silent]).inputs =
      offers [.extract, .dsep] ++ [.silent] ∧
    (running.setInputs [.offer 0x000000000#36, .offer 0x200000000#36, .silent]).inputs =
      [0x000000000#36, 0x200000000#36].map .offer ++ [.silent] := by decide

/-- Two different vectors, told apart at word 0. -/
theorem words_ne {v w : StateVec} (h : readWord v 0 ≠ readWord w 0) : v ≠ w := fun e => h (e ▸ rfl)

/-- The first way the words can change: `SEED`. -/
theorem witness_WordsWrittenOnlyBySeedTwistReset_seed :
    ∃ t, step (fresh.setInputs [.offer (encode (.seed 1#32))]) = .next t ∧ t.words ≠ fresh.words :=
  ⟨seed 1#32 fresh, rfl, words_ne (by decide +kernel)⟩

/-- The second: the twist of an `EXTRACT`. -/
theorem witness_WordsWrittenOnlyBySeedTwistReset_twist :
    ∃ t, step (plain 1#32 624 true .none [.offer (encode .extract)]) = .next t ∧
      t.words ≠ (plain 1#32 624 true .none []).words :=
  ⟨extract hardware (plain 1#32 624 true .none []), rfl, words_ne (by decide +kernel)⟩

theorem readWord_freshWords (epoch : Nat) : readWord (freshWords epoch) 0 = Config.resetWord epoch 0 := by
  unfold freshWords readWord
  exact Vector.getElem_ofFn _

theorem word_ne_succ (w : Word) : w ≠ w + 1#32 := by
  intro h
  bv_omega

/-- The third: a reset, on a state that does not happen to hold the free values. -/
theorem witness_WordsWrittenOnlyBySeedTwistReset_rst : ∃ s t : State,
    s.inputs = .rst Option.none :: [] ∧ step s = .next t ∧ t.words ≠ s.words :=
  ⟨plain (Config.resetWord 1 0 + 1#32) 5 true .none [.rst Option.none], _, rfl, rfl,
    words_ne fun h => word_ne_succ _ ((readWord_freshWords 1).symm.trans (h.trans (readWord_replicate _ 0)))⟩

theorem witness_OpcodeMapSelects :
    rowOf (.dbit false) ∈ opTable ∧ (rowOf (.dbit false)).Selects 0x400000001#36 ∧
      decode 0x400000001#36 = .command (.dbit true) ∧ decode 0x1FFFFFFFF#36 = .command (.seed 4294967295#32) := by decide

/-- Cases (a), (b) and (c) of R86 at their borders. -/
theorem witness_IllegalWordsExactly :
    decode 0x700000000#36 = .illegal (.unassignedOpcode 7#4) ∧ decode 0x600000001#36 = .illegal .operandNotZero ∧
      decode 0x280000000#36 = .illegal .operandNotZero ∧ decode 0x400000002#36 = .illegal .operandNotZero ∧
      decode 0x480000001#36 = .illegal .operandNotZero := by decide

theorem witness_EncodeDecodeRoundTrip : decode 0x1FFFFFFFF#36 = .command (.seed 4294967295#32) := by decide

theorem witness_ResponseWordFields :
    responseOf 0x0FFFFFFFF#34 = some (okResponse 4294967295#32) ∧
      responseOf 0x200000000#34 = some { status := .errIllegal, data := 0#32 } := by decide

theorem witness_SymbolCodes : symbolOf (Symbol.bits .sep) = some .sep := by decide

/-- The range of the recurrence (R110) at both ends. -/
theorem witness_SeedResult : (0 : Nat) + 1 < 624 ∧ (622 : Nat) + 1 < 624 := by decide

theorem witness_SeedArithmeticWraps : (1 ≤ (1 : Nat) ∧ (1 : Nat) ≤ 623) ∧ 1 ≤ (623 : Nat) ∧ (623 : Nat) ≤ 623 := by decide

/-- The three cases of `EXTRACT`, the second at both ends of its range. -/
theorem witness_ExtractResult :
    fresh.seeded = false ∧
      (∃ _ : (plain 7#32 0 true .p1 []).index.val < 624, (plain 7#32 0 true .p1 []).seeded = true) ∧
      (∃ _ : (plain 7#32 623 true .p1 []).index.val < 624, (plain 7#32 623 true .p1 []).seeded = true) ∧
      (plain 7#32 624 true .p1 []).index.val = 624 ∧ (plain 7#32 624 true .p1 []).seeded = true := by decide

/-- The cases of `EXTRACT` under a configuration are those of this hardware; a command that is not `EXTRACT`. -/
theorem witness_EveryConfigDraws :
    fresh.seeded = false ∧ (∃ _ : (plain 7#32 623 true .p1 []).index.val < 624, (plain 7#32 623 true .p1 []).seeded = true) ∧
      (plain 7#32 624 true .p1 []).index.val = 624 ∧ (plain 7#32 624 true .p1 []).seeded = true ∧
      Instr.dsep ≠ .extract := by decide

theorem witness_UnseededDrawRefused : fresh.seeded = false ∧ ∃ (t : State) (r : Response),
    accept 0x200000000#36 fresh = .next t ∧ t.rsps = fresh.rsps ++ [r] ∧ r.status = .errUnseeded :=
  ⟨rfl, _, { status := .errUnseeded, data := 0#32 }, rfl, rfl, rfl⟩

/-- The two ranges of R122 at their ends. -/
theorem witness_TwistByOperandAge :
    (0 : Nat) ≤ 226 ∧ (226 : Nat) ≤ 226 ∧ (227 ≤ (227 : Nat) ∧ (227 : Nat) ≤ 622) ∧ 227 ≤ (622 : Nat) ∧ (622 : Nat) ≤ 622 := by
  decide

theorem witness_TwistIgnoresLowBitsOfWordZero :
    (0x80000000#32 : Word).getLsbD 31 = (readWord (Vector.replicate 624 0xFFFFFFFF#32) 0).getLsbD 31 := by decide

/-- The four configurations of 95_test_vectors.md are admitted, and only values of R6 are. -/
theorem witness_TemperBijective :
    Config.Admitted .doc ∧ Config.Admitted .docS11 ∧ Config.Admitted .pub ∧ Config.Admitted .pubS11 ∧
      ¬ Config.Admitted { aCoeff := 0x990FB0DF#32, temperS := 8 } := by decide

/-- No command, and a mix of draws and VN commands, between the `SEED` and the draw. -/
theorem witness_DrawStreamClosedForm :
    (∀ i ∈ ([] : List Instr), i = .extract ∨ isMt i = false) ∧
      ∀ i ∈ [Instr.extract, .dbit true, .dsep, .extract, .dend], i = .extract ∨ isMt i = false := by decide

theorem witness_TwistCadence : 1 ≤ (1 : Nat) := Nat.le_refl 1

theorem witness_StateIndependentOfTemperShift :
    Config.doc.aCoeff = Config.docS11.aCoeff ∧ Config.doc.temperS ≠ Config.docS11.temperS := by decide

/-- A state for each move of the host, an offered word legal and illegal. -/
theorem witness_EveryConfigSteps :
    running.inputs = [] ∧ (running.setInputs [.silent]).inputs = .silent :: [] ∧
      (running.setInputs [.offer 0x200000000#36]).inputs = .offer 0x200000000#36 :: [] ∧
      decode 0x200000000#36 = .command .extract ∧
      (running.setInputs [.offer 0xFFFFFFFFF#36]).inputs = .offer 0xFFFFFFFFF#36 :: [] ∧
      decode 0xFFFFFFFFF#36 = .illegal (.unassignedOpcode 0xF#4) ∧
      (running.setInputs [.rst Option.none]).inputs = .rst Option.none :: [] ∧
      (running.setInputs [.rstDuring 0x500000000#36]).inputs = .rstDuring 0x500000000#36 :: [] := by decide

/-- One state for each case of R150. -/
theorem witness_DbitResult :
    fresh.pend = .none ∧ ((plain 0#32 624 false .p0 []).pend = .p0 ∧ true = true) ∧
      ((plain 0#32 624 false .p1 []).pend = .p1 ∧ false = false) ∧
      ((plain 0#32 624 false .p0 []).pend = .p0 ∧ false = false) ∧
      (plain 0#32 624 false .p1 []).pend = .p1 ∧ true = true := by decide

theorem witness_StreamingEqualsDebias : running.pend = .none := rfl

theorem witness_ClosedStringsAreIndependent : fresh.pend = .none := rfl

/-- Clauses (a) and (d) of R157: only equal pairs, with and without a leftover; a line of even length, empty or not. -/
theorem witness_DebiasEdgeCases :
    (∀ p ∈ pairsOf [false, false, true, true, true], p.1 = p.2) ∧ (∀ p ∈ pairsOf [], p.1 = p.2) ∧
      ([] : List Bool).length % 2 = 0 ∧ [false, true].length % 2 = 0 := by decide

theorem witness_UnitsCommute :
    isMt .extract = true ∧ isMt (.seed 0#32) = true ∧ isMt (.dbit true) = false ∧ isMt .dsep = false ∧ isMt .dend = false := by
  decide

/-- The two cases of `EXTRACT` in R89, the seeded one before and at the sentinel. -/
theorem witness_ResponseTable :
    decode 0x200000000#36 = .command .extract ∧ fresh.seeded = false ∧ running.seeded = true ∧ running.index.val ≠ 624 ∧
      (plain 1#32 624 true .none []).seeded = true ∧ (plain 1#32 624 true .none []).index.val = 624 := by decide

theorem witness_SeededUnitNeverErrs : running.seeded = true := rfl

theorem witness_NoOtherErrors : (Instr.seed 0#32 ≠ .extract) ∧ Instr.dbit false ≠ .extract ∧ Instr.dsep ≠ .extract ∧
    Instr.dend ≠ .extract := by decide

/-- Both errors of R203. -/
theorem witness_ErrorsLeaveNoTrace :
    (∃ (t : State) (r : Response), accept 0x200000000#36 fresh = .next t ∧ t.rsps = fresh.rsps ++ [r] ∧ r.status ≠ .ok) ∧
    ∃ (t : State) (r : Response), accept 0x200000001#36 running = .next t ∧ t.rsps = running.rsps ++ [r] ∧ r.status ≠ .ok :=
  ⟨⟨_, { status := .errUnseeded, data := 0#32 }, rfl, rfl, by decide⟩,
    ⟨_, { status := .errIllegal, data := 0#32 }, rfl, rfl, by decide⟩⟩

/-- A seeded state whose words are those of a seed, and the host's next word an `EXTRACT`. -/
def seededAt (cfg : Config) : State :=
  { plain 0#32 624 true .none [.offer 0x200000000#36] with words := generation cfg 5489#32 0 }

theorem seededAt_legal (cfg : Config) : LegalState (seededAt cfg) :=
  ⟨fun h => Bool.noConfusion h, fun r h => absurd h (by simp [seededAt, plain, State.rsps])⟩

theorem seededAt_lineage (cfg : Config) : Lineage cfg (seededAt cfg) := fun _ => ⟨5489#32, 0, rfl, fun _ => rfl⟩

theorem witness_StepKeepsLegalState : ∃ (s t : State), LegalState s ∧ s.seeded = true ∧ step s = .next t :=
  ⟨seededAt hardware, _, seededAt_legal hardware, rfl, rfl⟩

/-- A seeded state that has the lineage, so that its premise holds. -/
theorem witness_StepKeepsLineage : ∃ (s t : State), Lineage hardware s ∧ s.seeded = true ∧ step s = .next t :=
  ⟨seededAt hardware, _, seededAt_lineage hardware, rfl, rfl⟩

theorem witness_EveryConfigKeepsInvariants : ∃ (s t : State),
    LegalState s ∧ Lineage .pubS11 s ∧ s.seeded = true ∧ stepIn .pubS11 s = .next t :=
  ⟨seededAt .pubS11, _, seededAt_legal .pubS11, seededAt_lineage .pubS11, rfl, rfl⟩

theorem witness_RenderingOfAWord : (0 : Nat) < 32 ∧ (31 : Nat) < 32 := by decide

theorem witness_DataFlowOutput : fresh.pend = .none := rfl

/-- The operand ranges of R92 at their borders. -/
theorem witness_AssemblerOperandRanges :
    ((0 : Int) ≤ 0 ∧ (0 : Int) ≤ 4294967295) ∧ ((0 : Int) ≤ 4294967295 ∧ (4294967295 : Int) ≤ 4294967295) ∧
      ((-1 : Int) < 0 ∨ 4294967295 < (-1 : Int)) ∧ ((4294967296 : Int) < 0 ∨ 4294967295 < (4294967296 : Int)) := by decide

/-- Both clauses: a string with another character, a legal one, and the empty one. -/
theorem witness_DstrEmitsDebias :
    fresh.pend = .none ∧ ['0', '2'].all isFilterChar = false ∧ ['0', '1', '\n'].all isFilterChar = true ∧
      ([] : List Char).all isFilterChar = true := by decide

end Sys2Proof.Tests
end

