-- ==== Sys2Proof/Proofs/Reset.lean ====
section
/-! SUPPORT. The fields of the state after reset and its two views of the transfers (R35, R36), one lemma each, so that no proof
unfolds `State.reset`; and the statement about them. -/

namespace Sys2Proof.Machine

@[simp] theorem State.reset_index : State.reset.index = Fin.last 624 := rfl
@[simp] theorem State.reset_seeded : State.reset.seeded = false := rfl
@[simp] theorem State.reset_pend : State.reset.pend = .none := rfl
@[simp] theorem State.reset_transfers : State.reset.transfers = [] := rfl

@[simp] theorem State.reset_rsps : State.reset.rsps = [] := by
  rw [State.rsps, State.reset_transfers, List.filterMap_nil]

@[simp] theorem State.reset_dout : State.reset.dout = [] := by
  rw [State.dout, State.reset_transfers, List.filterMap_nil]

/-- Settles O1: each field is given by `State.reset`, and both channels are empty since nothing has been transferred. -/
theorem resetValues : Obligations.ResetValues :=
  ⟨congrArg Fin.val State.reset_index, State.reset_seeded, State.reset_pend, State.reset_transfers, State.reset_rsps,
    State.reset_dout⟩

end Sys2Proof.Machine
end

