-- ==== Sys2Proof/Proofs/Units.lean ====
section
/-! SUPPORT. The two units share no state (spec/20_memory.md R62): each command of a unit acts on the unit's own fields in a way
that the other unit's fields cannot change, and so commands of different units commute. -/

namespace Sys2Proof.Machine

/-- The footprint of an MT command: one state of the MT unit and one response, fixed by `s` whatever the latch holds and
whatever was transferred before (R62). -/
theorem perform_mt_footprint (cfg : Config) {m : Instr} (h : isMt m = true) (s : State) :
    ∃ ws n b k r, ∀ p ts, perform cfg m { s with pend := p, transfers := ts } =
      { s with words := ws, index := n, seeded := b, twists := k, pend := p, transfers := ts ++ answer [] r } := by
  cases m with
  | seed x => exact ⟨seedVec s.words x, Fin.last 624, true, s.twists, okResponse 0#32, fun _ _ => rfl⟩
  | extract =>
    rcases extract_cases cfg s with ⟨hs, -⟩ | ⟨hs, hi, -⟩ | ⟨hs, hi, -⟩
    · exact ⟨s.words, s.index, s.seeded, s.twists, { status := .errUnseeded, data := 0#32 },
        fun p ts => extract_unseeded cfg (s := { s with pend := p, transfers := ts }) hs⟩
    · exact ⟨twistVec cfg s.words, Fin.succ 0, s.seeded, s.twists + 1,
        okResponse (temper cfg (readWord (twistVec cfg s.words) 0)),
        fun p ts => extract_exhausted cfg (s := { s with pend := p, transfers := ts }) hs hi⟩
    · exact ⟨s.words, Fin.succ ⟨s.index.val, hi⟩, s.seeded, s.twists,
        okResponse (temper cfg (readWord s.words ⟨s.index.val, hi⟩)),
        fun p ts => extract_within cfg (s := { s with pend := p, transfers := ts }) hs hi⟩
  | dbit => cases h
  | dsep => cases h
  | dend => cases h

/-- The footprint of a VN command: one latch and one answer, fixed by `s` whatever the MT unit holds and whatever was transferred
before (R62). -/
theorem perform_vn_footprint (cfg : Config) {v : Instr} (h : isMt v = false) (s : State) :
    ∃ q ys r, ∀ ws n b k ts,
      perform cfg v { s with words := ws, index := n, seeded := b, twists := k, transfers := ts } =
        { s with words := ws, index := n, seeded := b, twists := k, pend := q, transfers := ts ++ answer ys r } := by
  cases v with
  | seed => cases h
  | extract => cases h
  | dbit c =>
    refine ⟨pairLatch s.pend c, (pairSymbol s.pend c).toList, okResponse 0#32, fun ws n b k ts => ?_⟩
    rw [perform, dbit]
    cases pairSymbol s.pend c with
    | none => rfl
    | some y => simp [State.emitOpt, State.emit, State.setPend, State.respond, answer, okResponse]
  | dsep =>
    refine ⟨.none, [.sep], okResponse 0#32, fun ws n b k ts => ?_⟩
    simp [perform, dsep, State.emit, State.setPend, State.respond, answer, okResponse]
  | dend => exact ⟨.none, [], okResponse 0#32, fun _ _ _ _ _ => rfl⟩

/-- Settles O43: each unit's footprint, once per unit for the independence, and the two in turn, in either order, for the
exchange. -/
theorem unitsCommute : Obligations.UnitsCommute := by
  intro m v s hm hv
  obtain ⟨ws, n, b, k, a, mt⟩ := perform_mt_footprint hardware hm s
  obtain ⟨q, ys, r, vn⟩ := perform_vn_footprint hardware hv s
  simp only [exec_eq_execIn, execIn_eq_perform, execAll_eq_performAll, Host.Outcome.next.injEq]
  refine ⟨?_, ?_, ?_⟩
  · refine ⟨_, mt s.pend s.transfers, rfl, ?_, fun p => mt p s.transfers⟩
    simpa using dout_of_answer (s := s) (ys := []) (r := a) rfl
  · exact ⟨_, vn s.words s.index s.seeded s.twists s.transfers, rfl, rfl, rfl,
      fun ws' n' b' => vn ws' n' b' s.twists s.transfers⟩
  · have mtThenVn := (congrArg (perform hardware v) (mt s.pend s.transfers)).trans
      (vn ws n b k (s.transfers ++ answer [] a))
    have vnThenMt := (congrArg (perform hardware m) (vn s.words s.index s.seeded s.twists s.transfers)).trans
      (mt q (s.transfers ++ answer ys r))
    exact ⟨_, a, r, ys, mtThenVn, rfl, vnThenMt⟩

end Sys2Proof.Machine
end

