-- ==== Sys2Proof/Proofs/Decoder.lean ====
section
/-! SUPPORT. Which words the decoder reads as which command, by their fields (spec/30_encoding.md R81 to R86): the one place where
`decode` is unfolded. -/

namespace Sys2Proof

/-- `opc` as a number (R81). -/
theorem opcOf_toNat (w : CmdWord) : (opcOf w).toNat = w.toNat / 2 ^ 32 := by
  have := w.isLt
  rw [opcOf, BitVec.extractLsb'_toNat, Nat.shiftRight_eq_div_pow]
  omega

/-- `imm` as a number (R81). -/
theorem immOf_toNat (w : CmdWord) : (immOf w).toNat = w.toNat % 2 ^ 32 := by
  rw [immOf, BitVec.extractLsb'_toNat, Nat.shiftRight_zero]

/-- `cmd[31:1]` as a number (R82). -/
theorem upperImmOf_toNat (w : CmdWord) : (upperImmOf w).toNat = w.toNat % 2 ^ 32 / 2 := by
  rw [upperImmOf, BitVec.extractLsb'_toNat, Nat.shiftRight_eq_div_pow]
  omega

/-- `imm` in format `B`: the bits that must be zero, and the operand bit (R82, R83). -/
theorem immOf_eq_append (w : CmdWord) : immOf w = upperImmOf w ++ w.extractLsb' 0 1 :=
  (BitVec.extractLsb'_append_extractLsb'_eq_extractLsb' (start₁ := 0) (len₁ := 1) (len₂ := 31) rfl).symm

/-- `opc[3:2]` in the word (R84). -/
theorem extractLsb'_opcOf (w : CmdWord) : w.extractLsb' 34 2 = (opcOf w).extractLsb' 2 2 := by
  conv_lhs => rw [← wordOf_fields w]
  exact BitVec.extractLsb'_append_eq_of_le (by decide)

/-- The fields of `w` are those of `i`: the assigned `opc`, the operand of `i`, and zeros where the format asks for them (R82 to
R84). -/
def Instr.Fits : Instr → CmdWord → Prop
  | .seed x, w => opcOf w = 0x1#4 ∧ immOf w = x
  | .extract, w => opcOf w = 0x2#4 ∧ immOf w = 0#32
  | .dbit b, w => opcOf w = 0x4#4 ∧ upperImmOf w = 0#31 ∧ bitOf w = b
  | .dsep, w => opcOf w = 0x5#4 ∧ immOf w = 0#32
  | .dend, w => opcOf w = 0x6#4 ∧ immOf w = 0#32

/-- The decoder reads a command off exactly the words with the command's fields. -/
theorem decode_eq_command_iff {w : CmdWord} {i : Instr} : decode w = .command i ↔ i.Fits w := by
  constructor
  · intro h
    unfold decode at h
    split_ifs at h <;> cases h <;> exact ⟨‹_›, by simp [*]⟩
  · intro h
    cases i with
    | seed x => simp [decode, h.1, h.2]
    | extract => simp [decode, h.1, h.2]
    | dbit b => simp [decode, h.1, h.2]
    | dsep => simp [decode, h.1, h.2]
    | dend => simp [decode, h.1, h.2]

/-- A word is illegal or a command, and not both (R86). -/
theorem decode_illegal_iff {w : CmdWord} :
    (∃ why, decode w = .illegal why) ↔ ∀ i, decode w ≠ .command i := by
  cases decode w <;> simp

/-- The words that carry the fields of some command (R84). -/
theorem exists_fits_iff (w : CmdWord) :
    (∃ i : Instr, i.Fits w) ↔ opcOf w = 0x1#4 ∨
      ((opcOf w = 0x2#4 ∨ opcOf w = 0x5#4 ∨ opcOf w = 0x6#4) ∧ immOf w = 0#32) ∨
      (opcOf w = 0x4#4 ∧ upperImmOf w = 0#31) := by
  constructor
  · rintro ⟨i, h⟩
    cases i with
    | seed x => exact .inl h.1
    | extract => exact .inr (.inl ⟨.inl h.1, h.2⟩)
    | dbit b =>
      obtain ⟨hopc, hupper, -⟩ := h
      exact .inr (.inr ⟨hopc, hupper⟩)
    | dsep => exact .inr (.inl ⟨.inr (.inl h.1), h.2⟩)
    | dend => exact .inr (.inl ⟨.inr (.inr h.1), h.2⟩)
  · rintro (hopc | ⟨hopc | hopc | hopc, himm⟩ | ⟨hopc, hupper⟩)
    · exact ⟨.seed (immOf w), hopc, rfl⟩
    · exact ⟨.extract, hopc, himm⟩
    · exact ⟨.dsep, hopc, himm⟩
    · exact ⟨.dend, hopc, himm⟩
    · exact ⟨.dbit (bitOf w), hopc, hupper, rfl⟩

/-- Which words are commands, `opc` and `imm` as numbers (R84). -/
theorem exists_decode_command_iff (w : CmdWord) :
    (∃ i, decode w = .command i) ↔
      w.toNat / 2 ^ 32 = 0x1 ∨
      ((w.toNat / 2 ^ 32 = 0x2 ∨ w.toNat / 2 ^ 32 = 0x5 ∨ w.toNat / 2 ^ 32 = 0x6) ∧ w.toNat % 2 ^ 32 = 0) ∨
      (w.toNat / 2 ^ 32 = 0x4 ∧ w.toNat % 2 ^ 32 / 2 = 0) := by
  simp only [decode_eq_command_iff, exists_fits_iff, ← BitVec.toNat_inj, opcOf_toNat, immOf_toNat, upperImmOf_toNat]
  rfl

end Sys2Proof
end

