-- ==== Sys2Proof/Proofs/OpcodeMap.lean ====
section
/-! SUPPORT. The rows of the opcode map select what the decoder reads (spec/30_encoding.md R84), and which words are illegal and how
they are answered (R86). -/

namespace Sys2Proof

open Machine

/-- The command of the row of `i` with the operand `w` carries (R83, R84). -/
def Instr.withOperandOf (w : CmdWord) : Instr → Instr
  | .seed _ => .seed (immOf w)
  | .extract => .extract
  | .dbit _ => .dbit (bitOf w)
  | .dsep => .dsep
  | .dend => .dend

@[simp] theorem rowOf_withOperandOf (w : CmdWord) (i : Instr) : rowOf (i.withOperandOf w) = rowOf i := by
  cases i <;> rfl

/-- The operand of a decoded command is the one in the word. -/
theorem withOperandOf_of_decode {w : CmdWord} {i : Instr} (h : decode w = .command i) : i.withOperandOf w = i := by
  rw [decode_eq_command_iff] at h
  cases i with
  | seed =>
    obtain ⟨-, himm⟩ := h
    exact congrArg Instr.seed himm
  | extract => rfl
  | dbit =>
    obtain ⟨-, -, hbit⟩ := h
    exact congrArg Instr.dbit hbit
  | dsep => rfl
  | dend => rfl

/-- A mask that keeps all of `opc` compares `opc` and the masked `imm` (R82). -/
theorem and_opcMask_eq_iff (w : CmdWord) (c : BitVec 4) (mask imm : Word) :
    w &&& wordOf 0xF#4 mask = wordOf c imm ↔ opcOf w = c ∧ immOf w &&& mask = imm := by
  conv_lhs => rw [← wordOf_fields w]
  rw [wordOf_and, wordOf_inj, show 0xF#4 = BitVec.allOnes 4 from rfl, BitVec.and_allOnes]

/-- The mask of format `B` on `imm` (R82, R84). -/
theorem immOf_and_eq_zero_iff (w : CmdWord) : immOf w &&& 0xFFFFFFFE#32 = 0#32 ↔ upperImmOf w = 0#31 := by
  have masked : immOf w &&& 0xFFFFFFFE#32 = upperImmOf w ++ 0#1 := by
    have h : (upperImmOf w ++ w.extractLsb' 0 1) &&& (BitVec.allOnes 31 ++ 0#1) = _ := BitVec.and_append
    rwa [BitVec.and_allOnes, BitVec.and_zero, ← immOf_eq_append] at h
  rw [masked]
  exact BitVec.append_left_inj (s₂ := 0#31) 0#1

/-- A word selects a row iff it decodes to the row's command, with the operand the word carries (R84). -/
theorem rowOf_selects_iff (w : CmdWord) (i : Instr) :
    (rowOf i).Selects w ↔ decode w = .command (i.withOperandOf w) := by
  rw [decode_eq_command_iff]
  have formatZ (c : BitVec 4) : w &&& wordOf 0xF#4 (BitVec.allOnes 32) = wordOf c 0#32 ↔ opcOf w = c ∧ immOf w = 0#32 := by
    rw [and_opcMask_eq_iff, BitVec.and_allOnes]
  cases i with
  | seed => exact (and_opcMask_eq_iff w 0x1#4 0#32 0#32).trans (and_congr_right fun _ => by simp)
  | extract => exact formatZ 0x2#4
  | dbit =>
    exact (and_opcMask_eq_iff w 0x4#4 0xFFFFFFFE#32 0#32).trans
      (and_congr_right fun _ => (immOf_and_eq_zero_iff w).trans (and_iff_left rfl).symm)
  | dsep => exact formatZ 0x5#4
  | dend => exact formatZ 0x6#4

/-- The rows of the table are the rows of the commands. -/
theorem mem_opTable_iff {r : OpRow} : r ∈ opTable ↔ ∃ i, rowOf i = r := by
  constructor
  · intro h
    simp only [opTable, List.mem_cons, List.not_mem_nil, or_false] at h
    rcases h with rfl | rfl | rfl | rfl | rfl <;> exact ⟨_, rfl⟩
  · rintro ⟨i, rfl⟩
    cases i <;> simp [opTable, rowOf]

/-- A word is illegal iff it selects no row (R84, R86). -/
theorem illegal_iff_selects_no_row (w : CmdWord) :
    (∃ why, decode w = .illegal why) ↔ ∀ r ∈ opTable, ¬ r.Selects w := by
  rw [decode_illegal_iff]
  constructor
  · intro h r hr
    obtain ⟨i, rfl⟩ := mem_opTable_iff.mp hr
    exact fun hs => h _ ((rowOf_selects_iff w i).mp hs)
  · intro h i hi
    refine h (rowOf i) (mem_opTable_iff.mpr ⟨i, rfl⟩) ((rowOf_selects_iff w i).mpr ?_)
    rwa [withOperandOf_of_decode hi]

/-- The rows are disjoint (R84). -/
theorem row_unique {w : CmdWord} {r r' : OpRow} (hr : r ∈ opTable) (hr' : r' ∈ opTable) (h : r.Selects w)
    (h' : r'.Selects w) : r = r' := by
  obtain ⟨i, rfl⟩ := mem_opTable_iff.mp hr
  obtain ⟨j, rfl⟩ := mem_opTable_iff.mp hr'
  have same : Decoded.command (i.withOperandOf w) = .command (j.withOperandOf w) :=
    ((rowOf_selects_iff w i).mp h).symm.trans ((rowOf_selects_iff w j).mp h')
  simpa using congrArg rowOf (Decoded.command.inj same)

/-- The unit of a command stands in `opc[3:2]` (R84). -/
theorem unitBits_of_decode {w : CmdWord} {i : Instr} (h : decode w = .command i) :
    w.extractLsb' 34 2 = if isMt i = true then 0b00#2 else 0b01#2 := by
  rw [decode_eq_command_iff] at h
  rw [extractLsb'_opcOf]
  cases i <;> (rw [h.1]; rfl)

/-- Settles O10: the five rows are `rowOf_selects_iff`, and the operand of format `I` is the low 32 bits of the word. -/
theorem opcodeMapSelects : Obligations.OpcodeMapSelects := by
  intro w
  have operand : immOf w = w.setWidth 32 := (BitVec.setWidth_eq_extractLsb' (by decide)).symm
  refine ⟨?_, rowOf_selects_iff w .extract, rowOf_selects_iff w (.dbit false), rowOf_selects_iff w .dsep,
    rowOf_selects_iff w .dend, illegal_iff_selects_no_row w, fun r hr r' hr' => row_unique hr hr',
    fun i => unitBits_of_decode⟩
  rw [← operand]
  exact rowOf_selects_iff w (.seed 0)

/-- An illegal word is answered by error entry (R202). -/
theorem accept_of_illegal {w : CmdWord} {why : Illegal} (s : State) (h : decode w = .illegal why) :
    accept w s = .next (s.raise .errIllegal) := by
  rw [accept, acceptBy, h]

/-- Settles O11: the illegal words are those that are no command (`exists_decode_command_iff`), and `opc` is below 16. -/
theorem illegalWordsExactly : Obligations.IllegalWordsExactly := by
  refine ⟨fun w => ?_, ⟨_, rfl⟩, fun w why s => accept_of_illegal s⟩
  have opc_lt : w.toNat / 2 ^ 32 < 16 := by have := w.isLt; omega
  rw [decode_illegal_iff, ← not_exists, exists_decode_command_iff]
  generalize w.toNat / 2 ^ 32 = opc, w.toNat % 2 ^ 32 = imm at *
  simp only [List.mem_cons, List.not_mem_nil, or_false]
  omega

end Sys2Proof
end

