-- ==== Sys2Proof/Proofs/Symbols.lean ====
section
/-! SUPPORT. The codes of the output symbols (spec/30_encoding.md R90). -/

namespace Sys2Proof.Machine

theorem Symbol.bits_ne_three (y : Symbol) : y.bits ≠ 0b11#2 := by cases y <;> decide

/-- Each code reads back as its symbol (R90). -/
@[simp] theorem symbolOf_bits (y : Symbol) : symbolOf y.bits = some y := by cases y <;> rfl

/-- Settles O16: the codes and characters are the definitions' own, and `State.emit_dout` is the effect of `emit` on the channel. -/
theorem symbolCodes : Obligations.SymbolCodes :=
  ⟨rfl, rfl, rfl, fun y => ⟨y.bits_ne_three, symbolOf_bits y⟩, fun y s => ⟨rfl, State.emit_dout y s⟩, rfl, rfl, rfl⟩

end Sys2Proof.Machine
end

