-- ==== Sys2Proof/Proofs/Responses.lean ====
section
/-! SUPPORT. The answer of every command: its symbol, if it has one, and then its response; and the table of R89
(spec/30_encoding.md R88, R89). -/

namespace Sys2Proof.Machine

@[simp] theorem drawAt_words (cfg : Config) (i : Pos) (s : State) : (drawAt cfg i s).words = s.words := rfl

/-- A draw is answered with the tempered word (R111). -/
theorem drawAt_transfers (cfg : Config) (i : Pos) (s : State) :
    (drawAt cfg i s).transfers = s.transfers ++ answer [] (okResponse (temper cfg (readWord s.words i))) := rfl

/-- Every command but `EXTRACT` is answered with its symbol, if it has one, and then `OK` with data 0 (R89). -/
theorem perform_transfers_of_ne_extract (cfg : Config) {i : Instr} (h : i ≠ .extract) (s : State) :
    (perform cfg i s).transfers = s.transfers ++ answer (emission i s).toList (okResponse 0#32) := by
  cases i with
  | seed => rfl
  | extract => exact absurd rfl h
  | dbit b => cases hy : pairSymbol s.pend b <;> simp [perform, dbit, emission, answer, okResponse, hy]
  | dsep => simp [perform, dsep, emission, answer, okResponse]
  | dend => rfl

/-- How `EXTRACT` is answered (R89): refused while unseeded, else with the tempered word of the position it draws, as that word
stands after a twist if there was one (R111). -/
theorem extract_transfers_cases (cfg : Config) (s : State) :
    (s.seeded = false ∧
      (extract cfg s).transfers = s.transfers ++ answer [] { status := .errUnseeded, data := 0#32 }) ∨
    (s.seeded = true ∧ ∃ i : Pos, (if s.index.val = 624 then i.val = 0 else i.val = s.index.val) ∧
      (extract cfg s).transfers =
        s.transfers ++ answer [] (okResponse (temper cfg (readWord (extract cfg s).words i)))) := by
  rcases extract_cases cfg s with ⟨hs, he⟩ | ⟨hs, hi, he⟩ | ⟨hs, hi, he⟩
  · exact .inl ⟨hs, by rw [he]; rfl⟩
  · exact .inr ⟨hs, 0, by rw [if_pos hi]; rfl, by rw [he]; rfl⟩
  · exact .inr ⟨hs, ⟨s.index.val, hi⟩, by rw [if_neg (Nat.ne_of_lt hi)], by rw [he]; rfl⟩

/-- The symbol of `DBIT b` by latch and bit (R89, R150). -/
theorem pairSymbol_toList (p : Pend) (b : Bool) :
    (pairSymbol p b).toList = match p with
      | .none => []
      | .p0 => if b = true then [.s0] else []
      | .p1 => if b = false then [.s1] else [] := by
  cases p <;> cases b <;> rfl

/-- Settles O44: an accepted word is refused as illegal, draws (`extract_transfers_cases`), or is one of the other commands
(`perform_transfers_of_ne_extract`). -/
theorem responseTable : Obligations.ResponseTable := by
  refine ⟨fun w s => by rw [accept_eq_acceptIn], fun cfg w s => ?_⟩
  rcases acceptIn_cases cfg w s with ⟨i, hi, ha⟩ | ⟨why, hw, ha⟩
  · by_cases he : i = .extract
    · subst he
      rcases extract_transfers_cases cfg s with ⟨hs, ht⟩ | ⟨hs, p, hp, ht⟩
      · refine ⟨_, _, [], ha, ht, rsps_of_answer ht, dout_of_answer ht, ?_⟩
        simp [hi, hs]
      · refine ⟨_, _, [], ha, ht, rsps_of_answer ht, dout_of_answer ht, ?_⟩
        rw [hi]
        exact ⟨rfl, by simp [hs], fun _ => ⟨rfl, p, hp, rfl⟩⟩
    · have ht := perform_transfers_of_ne_extract cfg he s
      refine ⟨_, _, _, ha, ht, rsps_of_answer ht, dout_of_answer ht, ?_⟩
      rw [hi]
      cases i with
      | seed => exact ⟨rfl, rfl⟩
      | extract => exact absurd rfl he
      | dbit b => exact ⟨rfl, pairSymbol_toList s.pend b⟩
      | dsep => exact ⟨rfl, rfl⟩
      | dend => exact ⟨rfl, rfl⟩
  · have ht : (s.raise .errIllegal).transfers = s.transfers ++ answer [] { status := .errIllegal, data := 0#32 } := rfl
    refine ⟨_, _, _, ha, ht, rsps_of_answer ht, dout_of_answer ht, ?_⟩
    rw [hw]
    exact ⟨rfl, rfl⟩

end Sys2Proof.Machine
end

