-- ==== Sys2Proof/Proofs/Streaming.lean ====
section
/-! SUPPORT. `debias` line by line and pair by pair, the VN unit character by character, and that the two agree
(spec/41_debiaser.md R150 to R155). -/

namespace Sys2Proof.Machine

/-! `debias` on the first line of a string. -/

/-- A string without separator is one line (R153, step (1)). -/
theorem splitLines_bits (l : List Bool) : splitLines (l.map .bit) = [l] := by
  induction l with
  | nil => rfl
  | cons b l ih => simp [splitLines, ih]

/-- A line ends at its separator (R153, step (1)). -/
theorem splitLines_bits_sep (l : List Bool) (r : List Ch) : splitLines (l.map .bit ++ .sep :: r) = l :: splitLines r := by
  induction l with
  | nil => rfl
  | cons b l ih => simp [splitLines, ih]

/-- Every string has a first line, and bits in front of the string are in front of that line (R153, step (1)). -/
theorem splitLines_bits_append (r : List Ch) :
    ∃ l ls, ∀ k : List Bool, splitLines (k.map .bit ++ r) = (k ++ l) :: ls := by
  obtain ⟨l, ls, h⟩ : ∃ l ls, splitLines r = l :: ls := by
    cases r with
    | nil => exact ⟨_, _, rfl⟩
    | cons c r =>
      cases c with
      | sep => exact ⟨_, _, rfl⟩
      | bit b => cases hr : splitLines r <;> simp [splitLines, hr]
  refine ⟨l, ls, fun k => ?_⟩
  induction k with
  | nil => exact h
  | cons b k ih => simp [splitLines, ih]

theorem joinLines_append (k l : List Bool) (ls : List (List Bool)) :
    joinLines ((k ++ l) :: ls) = k.map .bit ++ joinLines (l :: ls) := by
  cases ls <;> simp [joinLines]

/-- One line by itself (R153). -/
theorem debias_bits (l : List Bool) : debias (l.map .bit) = (debiasLine l).map .bit := by
  rw [debias, splitLines_bits]
  rfl

/-- The first line is filtered by itself, and its separator is kept (R153, steps (4) and (5)). -/
theorem debias_bits_sep (l : List Bool) (r : List Ch) :
    debias (l.map .bit ++ .sep :: r) = (debiasLine l).map .bit ++ .sep :: debias r := by
  obtain ⟨m, ls, h⟩ := splitLines_bits_append r
  have hr : splitLines r = m :: ls := h []
  rw [debias, splitLines_bits_sep, debias, hr]
  rfl

/-- The first pair of a line is filtered by itself (R153, steps (2) to (4)). -/
theorem debias_pair (a b : Bool) (r : List Ch) :
    debias (.bit a :: .bit b :: r) = (mapPair (a, b)).map .bit ++ debias r := by
  obtain ⟨l, ls, h⟩ := splitLines_bits_append r
  have hr : splitLines r = l :: ls := h []
  have hab : splitLines (.bit a :: .bit b :: r) = (a :: b :: l) :: ls := h [a, b]
  have line : debiasLine (a :: b :: l) = mapPair (a, b) ++ debiasLine l := rfl
  rw [debias, hab, List.map_cons, line, joinLines_append, debias, hr, List.map_cons]

/-! The VN unit on a string. -/

/-- The bits of the current pair that have arrived: what the latch stands for (R24). -/
def Pend.arrived (p : Pend) : List Bool := p.first.toList

@[simp] theorem Pend.arrived_none : Pend.arrived .none = [] := rfl

/-- A latched bit is no pair: a line that ends with it drops it (R151, R152). -/
@[simp] theorem debiasLine_arrived (p : Pend) : debiasLine p.arrived = [] := by cases p <;> rfl

/-- The symbols of a `DBIT` are `debias`'s output for the bits it completes, the others staying in the latch (R150). -/
theorem debias_arrived_bit (p : Pend) (b : Bool) (r : List Ch) :
    debias (p.arrived.map .bit ++ .bit b :: r) =
      (pairSymbol p b).toList.map symbolCh ++ debias ((pairLatch p b).arrived.map .bit ++ r) := by
  cases p with
  | none => cases b <;> rfl
  | p0 => cases b <;> exact debias_pair false _ r
  | p1 => cases b <;> exact debias_pair true _ r

@[simp] theorem dbit_pend (b : Bool) (s : State) : (dbit b s).pend = pairLatch s.pend b := rfl
@[simp] theorem dbit_dout (b : Bool) (s : State) : (dbit b s).dout = s.dout ++ (pairSymbol s.pend b).toList := by simp [dbit]
@[simp] theorem dsep_pend (s : State) : (dsep s).pend = .none := rfl
@[simp] theorem dsep_dout (s : State) : (dsep s).dout = s.dout ++ [.sep] := by simp [dsep]
@[simp] theorem dend_pend (s : State) : (dend s).pend = .none := rfl
@[simp] theorem dend_dout (s : State) : (dend s).dout = s.dout := by simp [dend]

/-- Streaming a string, from any latch: the symbols are `debias` of the latched bit and the string (R155). -/
theorem performAll_enc_dout (cfg : Config) (str : List Ch) (s : State) :
    (performAll cfg (enc str) s).dout.map symbolCh =
      s.dout.map symbolCh ++ debias (s.pend.arrived.map .bit ++ str) := by
  induction str generalizing s with
  | nil =>
    show (dend s).dout.map symbolCh = _
    rw [dend_dout, List.append_nil, debias_bits, debiasLine_arrived, List.map_nil, List.append_nil]
  | cons c r ih =>
    cases c with
    | bit b =>
      show (performAll cfg (enc r) (dbit b s)).dout.map symbolCh = _
      rw [ih, dbit_dout, dbit_pend, debias_arrived_bit, List.map_append, List.append_assoc]
    | sep =>
      show (performAll cfg (enc r) (dsep s)).dout.map symbolCh = _
      rw [ih, dsep_dout, dsep_pend, debias_bits_sep, debiasLine_arrived]
      simp [symbolCh]

/-- The final `DEND` leaves the latch empty (R155). -/
theorem performAll_enc_pend (cfg : Config) (str : List Ch) (s : State) : (performAll cfg (enc str) s).pend = .none := by
  rw [enc, performAll_append]
  rfl

end Sys2Proof.Machine
end

