-- ==== Sys2Proof/Proofs/Dstr.lean ====
section
/-! SUPPORT. The strings the assembler admits are the spellings of strings of letters, and what it makes of them
(spec/30_encoding.md R91, R95). -/

namespace Sys2Proof.Machine

/-- The admitted characters are those of the letters (R91, R95). -/
theorem isFilterChar_iff (c : Char) : isFilterChar c = true ↔ ∃ a, charOf a = c := by
  constructor
  · intro h
    simp only [isFilterChar, Bool.or_eq_true, beq_iff_eq] at h
    obtain (rfl | rfl) | rfl := h
    · exact ⟨.bit false, rfl⟩
    · exact ⟨.bit true, rfl⟩
    · exact ⟨.sep, rfl⟩
  · rintro ⟨a, rfl⟩
    match a with
    | .bit false => rfl
    | .bit true => rfl
    | .sep => rfl

/-- A string of admitted characters is the spelling of a string of letters (R95). -/
theorem exists_map_charOf {cs : List Char} (h : cs.all isFilterChar = true) : ∃ str : List Ch, str.map charOf = cs := by
  have letters : ∀ c ∈ cs, c ∈ Set.range charOf := fun c hc => (isFilterChar_iff c).mp (List.all_eq_true.mp h c hc)
  rwa [← Set.mem_range, Set.range_list_map]

@[simp] theorem chOf_charOf (a : Ch) : chOf (charOf a) = some a := by
  match a with
  | .bit false => rfl
  | .bit true => rfl
  | .sep => rfl

/-- The command of a character (R95). -/
theorem chInstr_eq (a : Ch) :
    chInstr a = if charOf a = '0' then .dbit false else if charOf a = '1' then .dbit true else .dsep := by
  match a with
  | .bit false => rfl
  | .bit true => rfl
  | .sep => rfl

/-- `DSTR` of a spelling is the commands of its letters and a `DEND` (R95). -/
theorem assembleLine_dstr_map_charOf (str : List Ch) : assembleLine (.dstr (str.map charOf)) = some (enc str) := by
  have legal : (str.map charOf).all isFilterChar = true :=
    List.all_eq_true.mpr fun c hc => (isFilterChar_iff c).mpr ((List.mem_map.mp hc).imp fun _ h => h.2)
  have letters : (str.map charOf).filterMap chOf = str := by simp [List.filterMap_map]
  rw [assembleLine, AsmLine.wf, if_pos legal, expandLine, letters]

theorem assembleLine_dstr_of_other {cs : List Char} (h : cs.all isFilterChar = false) : assembleLine (.dstr cs) = none := by
  rw [assembleLine, AsmLine.wf, h]
  rfl

/-- Settles O58: an admitted string is the spelling of letters, and streaming those emits their `debias`. -/
theorem dstrEmitsDebias : Obligations.DstrEmitsDebias := by
  intro cs s hs
  refine ⟨assembleLine_dstr_of_other, fun h => ?_⟩
  obtain ⟨str, rfl⟩ := exists_map_charOf h
  refine ⟨enc str, str, performAll hardware (enc str) s, assembleLine_dstr_map_charOf str, ?_, rfl,
    execAll_eq_performAll _ s, ?_, performAll_enc_pend hardware str s⟩
  · simp [enc, List.map_map, Function.comp_def, chInstr_eq]
  · rw [performAll_enc_dout, hs, Pend.arrived_none, List.map_nil, List.nil_append]

end Sys2Proof.Machine
end

