-- ==== Sys2Proof/Proofs/Seed.lean ====
section
/-! SUPPORT. The words `SEED` leaves: the seed, the recurrence, and that they depend on nothing else (spec/40_mt_core.md R110,
R127). -/

namespace Sys2Proof.Machine

/-- Word 0 is the seed: the loop starts above it (R110). -/
@[simp] theorem readWord_seedVec_zero (v : StateVec) (x : Word) : readWord (seedVec v x) 0 = x := by
  unfold seedVec
  rw [readWord_seedLoop_stable _ (n := 0) 0 (Nat.le_refl 0) (Nat.zero_le 623) (Nat.le_refl 623)]
  exact readWord_writeWord_self v 0 x

/-- Every other word follows from its predecessor, which is final when iteration `i + 1` reads it (R59, R110). -/
theorem readWord_seedVec_succ (v : StateVec) (x : Word) {i : Nat} (h : i + 1 < 624) :
    readWord (seedVec v x) ⟨i + 1, h⟩ = seedWord (readWord (seedVec v x) ⟨i, Nat.lt_of_succ_lt h⟩) (i + 1) := by
  unfold seedVec
  rw [readWord_seedLoop_stable _ ⟨i + 1, h⟩ (Nat.le_refl (i + 1)) (by omega) (Nat.le_refl 623),
    readWord_seedLoop_stable _ ⟨i, Nat.lt_of_succ_lt h⟩ (Nat.le_refl i) (by omega) (Nat.le_refl 623),
    seedLoop, readWord_seedStep, posOf_of_lt h, if_pos rfl, posOf_of_lt (Nat.lt_of_succ_lt h)]

/-- The words before a `SEED` are all overwritten (R110, R127). -/
theorem seedVec_congr (v w : StateVec) (x : Word) : seedVec v x = seedVec w x := by
  have same : ∀ (i : Nat) (h : i < 624), readWord (seedVec v x) ⟨i, h⟩ = readWord (seedVec w x) ⟨i, h⟩ := by
    intro i
    induction i with
    | zero => exact fun _ => (readWord_seedVec_zero v x).trans (readWord_seedVec_zero w x).symm
    | succ i ih => exact fun h => by rw [readWord_seedVec_succ, readWord_seedVec_succ, ih]
  exact stateVec_ext fun i => same i.val i.isLt

/-- Settles O17: word 0 and the recurrence are the two laws of `seedVec`, the other fields those of `seed`. -/
theorem seedResult : Obligations.SeedResult := fun x s =>
  ⟨decode_eq_command_iff.mpr ⟨opcOf_wordOf 0x1#4 x, immOf_wordOf 0x1#4 x⟩,
    seed x s, rfl, readWord_seedVec_zero s.words x, fun _ => readWord_seedVec_succ s.words x, rfl, rfl, rfl, rfl, rfl,
    rfl, rfl⟩

end Sys2Proof.Machine
end

