-- ==== Sys2Proof/Proofs/Extract.lean ====
section
/-! SUPPORT. A draw field by field; the three cases of `EXTRACT` as updates of the state, under every configuration; runs of draws
(spec/40_mt_core.md R111). -/

namespace Sys2Proof.Machine

@[simp] theorem drawAt_index (cfg : Config) (i : Pos) (s : State) : (drawAt cfg i s).index = i.succ := rfl
@[simp] theorem drawAt_seeded (cfg : Config) (i : Pos) (s : State) : (drawAt cfg i s).seeded = s.seeded := rfl
@[simp] theorem drawAt_twists (cfg : Config) (i : Pos) (s : State) : (drawAt cfg i s).twists = s.twists := rfl
@[simp] theorem drawAt_rsps (cfg : Config) (i : Pos) (s : State) :
    (drawAt cfg i s).rsps = s.rsps ++ [okResponse (temper cfg (readWord s.words i))] :=
  rsps_of_answer (drawAt_transfers cfg i s)

/-- Refused while unseeded (R111, R201). -/
theorem execIn_extract_unseeded (cfg : Config) {s : State} (h : s.seeded = false) :
    execIn cfg .extract s =
      .next { s with transfers := s.transfers ++ [.rsp { status := .errUnseeded, data := 0#32 }] } :=
  congrArg Host.Outcome.next (extract_unseeded cfg h)

/-- The draw at the index (R111). -/
theorem execIn_extract_within (cfg : Config) {s : State} (hs : s.seeded = true) (h : s.index.val < 624) :
    execIn cfg .extract s = .next { s with
      index := ⟨s.index.val + 1, by omega⟩
      transfers := s.transfers ++ [.rsp { status := .ok, data := temper cfg s.words[s.index.val] }] } :=
  congrArg Host.Outcome.next (extract_within cfg hs h)

/-- The twist, and the draw of its word 0 (R111). -/
theorem execIn_extract_exhausted (cfg : Config) {s : State} (hs : s.seeded = true) (h : s.index.val = 624) :
    execIn cfg .extract s = .next { s with
      words := twistVec cfg s.words
      index := 1
      twists := s.twists + 1
      transfers := s.transfers ++ [.rsp { status := .ok, data := temper cfg (twistVec cfg s.words)[0] }] } :=
  congrArg Host.Outcome.next (extract_exhausted cfg hs h)

/-- Settles O20: the three cases of `EXTRACT` at this hardware's configuration. -/
theorem extractResult : Obligations.ExtractResult := by
  refine ⟨decode_eq_command_iff.mpr ⟨opcOf_wordOf 0x2#4 0#32, immOf_wordOf 0x2#4 0#32⟩, fun s => ?_⟩
  rw [exec_eq_execIn]
  exact ⟨execIn_extract_unseeded hardware, fun h hs => execIn_extract_within hardware hs h,
    fun h hs => execIn_extract_exhausted hardware hs h⟩

/-- A run of draws is one draw and then the others (R58). -/
theorem performAll_extracts_succ (cfg : Config) (n : Nat) (s : State) :
    performAll cfg (List.replicate (n + 1) .extract) s =
      performAll cfg (List.replicate n .extract) (extract cfg s) := rfl

end Sys2Proof.Machine
end

