-- ==== Sys2Proof/Proofs/SeededStream.lean ====
section
/-! SUPPORT. What a seed fixes: the MT unit's registers, and by them every draw that follows (spec/40_mt_core.md R124, R127). -/

namespace Sys2Proof.Machine

/-- The two states hold the same in the MT unit's registers (R20, R21, R23). -/
structure SameMt (s s' : State) : Prop where
  words : s.words = s'.words
  index : s.index = s'.index
  seeded : s.seeded = s'.seeded

/-- `SEED` leaves the MT unit the same from any two states (R127). -/
theorem seed_sameMt (x : Word) (s s' : State) : SameMt (seed x s) (seed x s') :=
  ⟨seedVec_congr s.words s'.words x, rfl, rfl⟩

/-- A draw's response and effect on the MT unit are fixed by the unit's registers (R124). -/
theorem extract_sameMt (cfg : Config) {s s' : State} (h : SameMt s s') :
    SameMt (extract cfg s) (extract cfg s') ∧
      ∃ r, (extract cfg s).rsps = s.rsps ++ [r] ∧ (extract cfg s').rsps = s'.rsps ++ [r] := by
  obtain ⟨hw, hi, hs⟩ := h
  rcases extract_cases cfg s with ⟨un, he⟩ | ⟨sd, ex, he⟩ | ⟨sd, within, he⟩
  · rw [he, extract_unseeded cfg (hs ▸ un)]
    exact ⟨⟨hw, hi, hs⟩, _, State.raise_rsps _ s, State.raise_rsps _ s'⟩
  · rw [he, extract_exhausted cfg (hs ▸ sd) (hi ▸ ex)]
    exact ⟨⟨congrArg (twistVec cfg) hw, rfl, hs⟩, _, drawAt_rsps cfg 0 _, by simp [hw]⟩
  · rw [he, extract_within cfg (hs ▸ sd) (hi ▸ within)]
    exact ⟨⟨hw, by simp [hi], hs⟩, _, drawAt_rsps cfg _ s, by simp [hw, hi]⟩

/-- Draws from the same registers give the same responses (R124). -/
theorem performAll_extracts_sameMt (cfg : Config) (n : Nat) {s s' : State} (h : SameMt s s') :
    ∃ ds, (performAll cfg (List.replicate n .extract) s).rsps = s.rsps ++ ds ∧
      (performAll cfg (List.replicate n .extract) s').rsps = s'.rsps ++ ds ∧ ds.length = n := by
  induction n generalizing s s' with
  | zero => exact ⟨[], (List.append_nil _).symm, (List.append_nil _).symm, rfl⟩
  | succ n ih =>
    obtain ⟨next, r, hr, hr'⟩ := extract_sameMt cfg h
    obtain ⟨ds, hds, hds', len⟩ := ih next
    refine ⟨r :: ds, ?_, ?_, congrArg (· + 1) len⟩
    · rw [performAll_extracts_succ, hds, hr, ← List.append_cons]
    · rw [performAll_extracts_succ, hds', hr', ← List.append_cons]

/-- Settles O19: the two seeded states agree in the MT unit (`seed_sameMt`), and so do the draws from them. -/
theorem seedFixesTheStream : Obligations.SeedFixesTheStream := by
  refine ⟨fun i s => by rw [exec_eq_execIn], fun is s => by rw [execAll_eq_execAllIn], fun cfg x n s s' => ?_⟩
  have same := seed_sameMt x s s'
  obtain ⟨ds, hds, hds', len⟩ := performAll_extracts_sameMt cfg n same
  exact ⟨_, _, _, _, ds, rfl, rfl, same.words, same.index, same.seeded, execAllIn_eq_performAll cfg _ _,
    execAllIn_eq_performAll cfg _ _, hds, hds', len⟩

end Sys2Proof.Machine
end

