-- ==== Sys2Proof/Proofs/TwistCadence.lean ====
section
/-! SUPPORT. When the twists fall (spec/40_mt_core.md R125): every draw moves the pair of generation and index on by one place. -/

namespace Sys2Proof.Machine

/-- The place of the MT unit in its stream: the words of the generations twisted so far, up to the index (R21, R125). -/
def State.streamPlace (s : State) : Nat := 624 * s.twists + s.index.val

/-- A draw on a seeded unit goes one place on, and leaves an index above 0: the twist that sets the index to 0 is followed by
the draw of word 0 (R111). -/
theorem extract_streamPlace (cfg : Config) {s : State} (h : s.seeded = true) :
    (extract cfg s).seeded = true ∧ (extract cfg s).streamPlace = s.streamPlace + 1 ∧ 0 < (extract cfg s).index.val := by
  rcases extract_cases cfg s with ⟨un, -⟩ | ⟨-, ex, he⟩ | ⟨-, within, he⟩
  · exact absurd (h.symm.trans un) Bool.noConfusion
  · rw [he]
    refine ⟨h, ?_, Nat.zero_lt_one⟩
    show 624 * (s.twists + 1) + 1 = 624 * s.twists + s.index.val + 1
    rw [ex, Nat.mul_succ]
  · rw [he]
    exact ⟨h, rfl, Nat.succ_pos _⟩

/-- `d` draws on a seeded unit go `d` places on. -/
theorem performAll_extracts_streamPlace (cfg : Config) (d : Nat) {s : State} (h : s.seeded = true) (hi : 0 < s.index.val) :
    (performAll cfg (List.replicate d .extract) s).streamPlace = s.streamPlace + d ∧
      0 < (performAll cfg (List.replicate d .extract) s).index.val := by
  induction d generalizing s with
  | zero => exact ⟨rfl, hi⟩
  | succ d ih =>
    obtain ⟨hs, place, pos⟩ := extract_streamPlace cfg h
    obtain ⟨places, pos'⟩ := ih hs pos
    exact ⟨by rw [performAll_extracts_succ, places, place, Nat.add_assoc, Nat.add_comm 1], pos'⟩

/-- The twist count and the index after a `SEED` and `d` draws: a place determines both, the index lying between 1 and 624
(R125). -/
theorem performAll_seed_extracts (cfg : Config) (x : Word) (d : Nat) (s : State) :
    (performAll cfg (.seed x :: List.replicate d .extract) s).twists = s.twists + (d + 623) / 624 ∧
      (performAll cfg (.seed x :: List.replicate d .extract) s).index.val + 624 * ((d + 623) / 624) = 624 + d := by
  obtain ⟨place, pos⟩ := performAll_extracts_streamPlace cfg d (s := seed x s) rfl (Nat.succ_pos 623)
  rw [performAll, perform]
  generalize performAll cfg (List.replicate d .extract) (seed x s) = t at *
  have le : t.index.val ≤ 624 := Nat.le_of_lt_succ t.index.isLt
  simp only [State.streamPlace, seed_twists, seed_index, Fin.val_last] at place
  omega

/-- Settles O31: `performAll_seed_extracts`, for any number of draws and for whole generations. -/
theorem twistCadence : Obligations.TwistCadence := by
  refine ⟨fun is s => by rw [execAll_eq_execAllIn], fun cfg x s => ⟨fun d => ?_, fun k _ => ?_⟩⟩
  · exact ⟨_, execAllIn_eq_performAll cfg _ s, (performAll_seed_extracts cfg x d s).1⟩
  · obtain ⟨twists, index⟩ := performAll_seed_extracts cfg x (624 * k) s
    exact ⟨_, execAllIn_eq_performAll cfg _ s, by omega, by omega⟩

end Sys2Proof.Machine
end

