-- ==== Sys2Proof/Proofs/VnUnit.lean ====
section
/-! SUPPORT. The three commands of the VN unit as updates of the state: each sets the latch and is answered with its symbol, if it
has one, and then `OK` (spec/41_debiaser.md R150 to R152); and `debias` on the source's literals (R158). -/

namespace Sys2Proof.Machine

/-- The shape all three VN commands share: the latch is set, the answer appended, everything else left as it was. -/
theorem State.respond_setPend_emitOpt (y : Option Symbol) (p : Pend) (s : State) :
    ((s.emitOpt y).setPend p).respond .ok 0#32 =
      { s with pend := p, transfers := s.transfers ++ answer y.toList (okResponse 0#32) } := by
  cases y with
  | none => rfl
  | some y =>
    exact congrArg (fun ts => { s with pend := p, transfers := ts })
      (List.append_assoc s.transfers [.dout y] [.rsp (okResponse 0#32)])

/-- `DBIT b` under the latch `p` (R150). -/
theorem exec_dbit {s : State} {p : Pend} (hp : s.pend = p) (b : Bool) :
    exec (.dbit b) s = .next { s with
      pend := pairLatch p b
      transfers := s.transfers ++ answer (pairSymbol p b).toList (okResponse 0#32) } := by
  subst hp
  exact congrArg Host.Outcome.next (State.respond_setPend_emitOpt (pairSymbol s.pend b) (pairLatch s.pend b) s)

/-- The first bit of a pair is remembered (R150). -/
theorem pairLatch_none (b : Bool) : pairLatch .none b = if b = false then .p0 else .p1 := by cases b <;> rfl

/-- The words of `DBIT` are those of format `B` with its `opc` (R82, R84). -/
theorem decode_dbit (b : Bool) : decode (0x4#4 ++ (0#31 ++ BitVec.ofBool b)) = .command (.dbit b) := by
  refine decode_eq_command_iff.mpr ⟨opcOf_wordOf 0x4#4 (0#31 ++ BitVec.ofBool b), ?_, ?_⟩
  · cases b <;> rfl
  · cases b <;> rfl

/-- Settles O35: `exec_dbit` at each latch, where the bit decides whether the pair has a symbol. -/
theorem dbitResult : Obligations.DbitResult := by
  refine ⟨decode_dbit, fun s b => ⟨fun hp => ?_, ?_, ?_, ?_, ?_⟩⟩
  · rw [exec_dbit hp, pairLatch_none]
    rfl
  · rintro hp rfl
    exact exec_dbit hp true
  · rintro hp rfl
    exact exec_dbit hp false
  · rintro hp rfl
    exact exec_dbit hp false
  · rintro hp rfl
    exact exec_dbit hp true

/-- Settles O36: the latch emptied, and the answer that of the one symbol `SEP`. -/
theorem dsepResult : Obligations.DsepResult :=
  ⟨decode_eq_command_iff.mpr ⟨opcOf_wordOf 0x5#4 0#32, immOf_wordOf 0x5#4 0#32⟩,
    fun s => congrArg Host.Outcome.next (State.respond_setPend_emitOpt (some .sep) .none s)⟩

/-- Settles O37: the latch emptied, and the answer one without symbol. -/
theorem dendResult : Obligations.DendResult :=
  ⟨decode_eq_command_iff.mpr ⟨opcOf_wordOf 0x6#4 0#32, immOf_wordOf 0x6#4 0#32⟩,
    fun s => congrArg Host.Outcome.next (State.respond_setPend_emitOpt none .none s)⟩

/-- Settles O41: three strings of one line, and one of a line, its separator and a line. -/
theorem debiasLiteralCases : Obligations.DebiasLiteralCases := by
  refine ⟨debias_bits [false, true, true, false], debias_bits [false, false, true, true],
    debias_bits [false, true, false], ?_⟩
  calc debias ([false, true, false, true].map .bit ++ .sep :: [true, false, true, false].map .bit)
    _ = [.bit false, .bit false] ++ .sep :: debias ([true, false, true, false].map .bit) :=
      debias_bits_sep [false, true, false, true] _
    _ = [.bit false, .bit false] ++ .sep :: [.bit true, .bit true] := by
      rw [debias_bits]
      rfl

end Sys2Proof.Machine
end

