-- ==== Sys2Proof/Proofs/Renderings.lean ====
section
/-! SUPPORT. The renderings of a drawn value on the host's side: its 32 characters, the commands of `DWORD`, its four bytes, and
what `debias` makes of values rendered one per line (spec/42_host_conventions.md R181, R182, R184, R186; spec/30_encoding.md
R94). -/

namespace Sys2Proof.Machine

@[simp] theorem render32_length (v : Word) : (render32 v).length = 32 := by simp [render32]

/-- Character `j` is bit `31 - j` (R182). -/
theorem render32_getElem? (v : Word) {j : Nat} (h : j < 32) : (render32 v)[j]? = some (v.getLsbD (31 - j)) := by
  simp [render32, h]

@[simp] theorem low32_toNat (v : Word) : low32 v.toNat = v := by simp [low32]

/-- A word's own number is within the operand range of `SEED` and `DWORD` (R92, R94). -/
@[simp] theorem isWordLiteral_toNat (v : Word) : isWordLiteral v.toNat = true := by
  have := v.isLt
  simp only [isWordLiteral, Bool.and_eq_true, decide_eq_true_eq]
  omega

/-- `DWORD` of a word assembles to the `DBIT` commands of its rendering (R94). -/
theorem assembleLine_dword (v : Word) : assembleLine (.dword v.toNat) = some (dword v) := by
  rw [assembleLine, AsmLine.wf, isWordLiteral_toNat, if_pos rfl, expandLine, Int.toNat_natCast, low32_toNat]

/-- Settles O53: the characters by position, and `DWORD` as the commands of the characters, which is how `dword` is defined. -/
theorem renderingOfAWord : Obligations.RenderingOfAWord := fun v =>
  ⟨render32_length v, fun _ => render32_getElem? v, assembleLine_dword v⟩

/-- A word is the sum of its four bytes, each at its place (R181). -/
theorem toNat_eq_sum_bytes (v : Word) :
    v.toNat = (v.extractLsb' 0 8).toNat + 2 ^ 8 * (v.extractLsb' 8 8).toNat + 2 ^ 16 * (v.extractLsb' 16 8).toNat +
      2 ^ 24 * (v.extractLsb' 24 8).toNat := by
  have := v.isLt
  simp only [BitVec.extractLsb'_toNat, Nat.shiftRight_eq_div_pow]
  omega

/-- Settles O54: the bytes are those of `bytesLe`, which sum to the word; the example is the rule's. -/
theorem littleEndianBytes : Obligations.LittleEndianBytes :=
  ⟨fun v => ⟨_, _, _, _, rfl, toNat_eq_sum_bytes v⟩, by decide⟩

/-- Joined lines are filtered line by line (R153). -/
theorem debias_joinLines (ls : List (List Bool)) : debias (joinLines ls) = joinLines (ls.map debiasLine) := by
  induction ls with
  | nil => rfl
  | cons l ls ih =>
    cases ls with
    | nil => exact debias_bits l
    | cons m ls =>
      rw [joinLines, debias_bits_sep, ih]
      rfl

/-- One line more is a separator and the line more, unless it is the first (R153, step (5)). -/
theorem joinLines_concat {ls : List (List Bool)} (h : ls ≠ []) (l : List Bool) :
    joinLines (ls ++ [l]) = joinLines ls ++ .sep :: l.map .bit := by
  induction ls with
  | nil => exact absurd rfl h
  | cons k ls ih =>
    cases ls with
    | nil => rfl
    | cons m ls =>
      have tail := ih (List.cons_ne_nil m ls)
      simp only [List.cons_append, joinLines] at tail ⊢
      rw [tail, List.append_assoc, List.cons_append]

/-- Values rendered one per line are filtered value by value (R184, R186). -/
theorem debias_renderSeq (vs : List Word) :
    debias (renderSeq false vs) = joinLines (vs.map fun v => debiasLine (render32 v)) := by
  have plain : renderSeq false vs = joinLines (vs.map render32) := by simp [renderSeq]
  rw [plain, debias_joinLines, List.map_map]
  rfl

/-- One value more, after others: a separator and the value's own contribution (R184, R186). -/
theorem debias_renderSeq_concat {vs : List Word} (h : vs ≠ []) (v : Word) :
    debias (renderSeq false (vs ++ [v])) =
      debias (renderSeq false vs) ++ .sep :: (debiasLine (render32 v)).map .bit := by
  rw [debias_renderSeq, debias_renderSeq, List.map_append, List.map_cons, List.map_nil,
    joinLines_concat (mt List.map_eq_nil_iff.mp h)]

end Sys2Proof.Machine
end

