-- ==== Sys2Proof/Proofs/DrawStream.lean ====
section
/-! SUPPORT. The draws after a `SEED` in closed form: the place of the MT unit in the stream of a seed, which a draw moves on by
one and which the VN unit's commands leave alone (spec/40_mt_core.md R123; spec/20_memory.md R62). -/

namespace Sys2Proof.Machine

/-- The unit stands before draw `n` of the seed `x`: it holds a generation of `x`, and that generation and the index are the
place `n` in the stream (R123). -/
structure AwaitsDraw (cfg : Config) (x : Word) (n : Nat) (s : State) : Prop where
  seeded : s.seeded = true
  place : ∃ k, s.words = generation cfg x k ∧ 624 * k + s.index.val = 624 + n ∧ 0 < s.index.val

/-- After `SEED` the unit holds generation 0, all of it consumed (R110). -/
theorem seed_awaitsDraw (cfg : Config) (x : Word) (s : State) : AwaitsDraw cfg x 0 (seed x s) :=
  ⟨rfl, 0, seedVec_congr s.words _ x, rfl, Nat.succ_pos 623⟩

/-- The draw at place `624 * k + i` of the stream (R123). -/
theorem drawOf_eq (cfg : Config) (x : Word) (k : Nat) (i : Pos) :
    drawOf cfg x (624 * k + i.val) = temper cfg (readWord (generation cfg x (k + 1)) i) := by
  have generationNo : (624 * k + i.val) / 624 = k := by have := i.isLt; omega
  have position : posOf (624 * k + i.val) = i := Fin.ext (by have := i.isLt; rw [posOf_val]; omega)
  rw [drawOf, generationNo, position]

/-- The draws as a list, the last one apart (R183). -/
theorem drawStream_succ (cfg : Config) (x : Word) (n : Nat) :
    drawStream cfg x (n + 1) = drawStream cfg x n ++ [drawOf cfg x n] := by
  simp [drawStream, List.range_succ]

/-- `EXTRACT` answers draw `n` and stands before the next one: it draws at the index, or twists to the next generation and draws
its word 0 (R111, R123). -/
theorem extract_of_awaitsDraw {cfg : Config} {x : Word} {n : Nat} {s : State} (h : AwaitsDraw cfg x n s) :
    AwaitsDraw cfg x (n + 1) (extract cfg s) ∧ (extract cfg s).rsps = s.rsps ++ [okResponse (drawOf cfg x n)] := by
  obtain ⟨sd, k, hw, place, pos⟩ := h
  rcases extract_cases cfg s with ⟨un, -⟩ | ⟨-, ex, he⟩ | ⟨-, within, he⟩
  · exact absurd (sd.symm.trans un) Bool.noConfusion
  · obtain rfl : n = 624 * k + (0 : Pos).val := by rw [Fin.val_zero]; omega
    have next : (twist cfg s).words = generation cfg x (k + 1) := congrArg (twistVec cfg) hw
    rw [he, drawAt_rsps, drawOf_eq, next]
    exact ⟨⟨sd, k + 1, next, by rw [drawAt_index, Fin.val_succ, Fin.val_zero]; omega, Nat.succ_pos _⟩, rfl⟩
  · obtain ⟨k, rfl⟩ : ∃ k', k = k' + 1 := Nat.exists_eq_add_one.mpr (by omega)
    obtain rfl : n = 624 * k + s.index.val := by omega
    rw [he, drawAt_rsps, drawOf_eq cfg x k ⟨s.index.val, within⟩, hw]
    exact ⟨⟨sd, k + 1, hw, congrArg (· + 1) place, Nat.succ_pos _⟩, rfl⟩

/-- The host reads draw `n` off the response (R88, R185). -/
theorem lastData_extract {cfg : Config} {x : Word} {n : Nat} {s : State} (h : AwaitsDraw cfg x n s) :
    lastData (extract cfg s) = drawOf cfg x n := by
  rw [lastData, (extract_of_awaitsDraw h).2, List.getLast?_concat]
  rfl

/-- The place in the stream is one of the MT unit's registers. -/
theorem AwaitsDraw.congr {cfg : Config} {x : Word} {n : Nat} {s s' : State} (h : AwaitsDraw cfg x n s) (same : SameMt s s') :
    AwaitsDraw cfg x n s' := by
  obtain ⟨hw, hi, hs⟩ := same
  obtain ⟨sd, place⟩ := h
  rw [hw, hi] at place
  exact ⟨hs ▸ sd, place⟩

/-- A VN command leaves the MT unit's registers alone (R62). -/
theorem perform_vn_sameMt (cfg : Config) {i : Instr} (h : isMt i = false) (s : State) : SameMt s (perform cfg i s) := by
  obtain ⟨q, ys, r, vn⟩ := perform_vn_footprint cfg h s
  have after : perform cfg i s = _ := vn s.words s.index s.seeded s.twists s.transfers
  rw [after]
  exact ⟨rfl, rfl, rfl⟩

/-- VN commands leave the place in the stream alone (R62). -/
theorem AwaitsDraw.performAll_vn {cfg : Config} {x : Word} {n : Nat} {is : List Instr} (hv : ∀ i ∈ is, isMt i = false)
    {s : State} (h : AwaitsDraw cfg x n s) : AwaitsDraw cfg x n (performAll cfg is s) := by
  induction is generalizing s with
  | nil => exact h
  | cons i is ih =>
    obtain ⟨hi, his⟩ := List.forall_mem_cons.mp hv
    exact ih his (h.congr (perform_vn_sameMt cfg hi s))

end Sys2Proof.Machine
end

