-- ==== Sys2Proof/Proofs/DataFlow.lean ====
section
/-! SUPPORT. The host's data flow from the MT unit to the VN unit: what one turn of its loop draws and emits, and the whole flow
(spec/42_host_conventions.md R185). -/

namespace Sys2Proof.Machine

/-- A draw leaves the latch and the symbols alone (R62). -/
theorem extract_vn_frame (cfg : Config) (s : State) : (extract cfg s).pend = s.pend ∧ (extract cfg s).dout = s.dout := by
  obtain ⟨ws, n, b, k, r, mt⟩ := perform_mt_footprint cfg (m := .extract) rfl s
  have after : extract cfg s = _ := mt s.pend s.transfers
  refine ⟨by rw [after], ?_⟩
  simpa using dout_of_answer (ys := []) (congrArg State.transfers after)

/-- `DWORD` of a value, sent to an empty latch, emits the value's own contribution (R94, R155). -/
theorem performAll_dword_dout (cfg : Config) (v : Word) {s : State} (h : s.pend = .none) :
    (performAll cfg (dword v) s).dout.map symbolCh =
      s.dout.map symbolCh ++ (debiasLine (render32 v)).map .bit := by
  have closed : performAll cfg (enc ((render32 v).map .bit)) s = dend (performAll cfg (dword v) s) := by
    rw [enc, List.map_map, performAll_append]
    rfl
  have streamed := performAll_enc_dout cfg ((render32 v).map .bit) s
  rwa [closed, dend_dout, h, Pend.arrived_none, List.map_nil, List.nil_append, debias_bits] at streamed

theorem isMt_of_mem_dword {v : Word} {i : Instr} (h : i ∈ dword v) : isMt i = false := by
  obtain ⟨b, -, rfl⟩ := List.mem_map.mp h
  rfl

/-- The flow after `n` values: the unit stands before draw `n`, and the symbols since `out` are `debias` of the values rendered so
far (R185). -/
structure FlowAt (cfg : Config) (x : Word) (out : List Ch) (n : Nat) (s : State) : Prop where
  draws : AwaitsDraw cfg x n s
  symbols : s.dout.map symbolCh = out ++ debias (renderSeq false (drawStream cfg x n))

/-- Before the first value nothing has been emitted. -/
theorem seed_flowAt (cfg : Config) (x : Word) (s : State) : FlowAt cfg x (s.dout.map symbolCh) 0 (seed x s) :=
  ⟨seed_awaitsDraw cfg x s, by rw [seed_dout]; exact (List.append_nil _).symm⟩

/-- The first turn sends its value without a separator, to a latch that is empty (R185). -/
theorem flowTurn_first {cfg : Config} {x : Word} {out : List Ch} {s : State} (h : FlowAt cfg x out 0 s)
    (hp : s.pend = .none) : FlowAt cfg x out 1 (flowTurn cfg true s) := by
  obtain ⟨pend, dout⟩ := extract_vn_frame cfg s
  have turn : flowTurn cfg true s = performAll cfg (dword (drawOf cfg x 0)) (extract cfg s) := by
    rw [← lastData_extract h.draws]
    rfl
  rw [turn]
  refine ⟨(extract_of_awaitsDraw h.draws).1.performAll_vn fun _ => isMt_of_mem_dword, ?_⟩
  rw [performAll_dword_dout cfg _ (pend.trans hp), dout, h.symbols, List.append_assoc, debias_renderSeq, debias_renderSeq]
  rfl

/-- Every other turn sends a separator first, which empties the latch (R185). -/
theorem flowTurn_later {cfg : Config} {x : Word} {out : List Ch} {n : Nat} {s : State} (h : FlowAt cfg x out (n + 1) s) :
    FlowAt cfg x out (n + 2) (flowTurn cfg false s) := by
  obtain ⟨-, dout⟩ := extract_vn_frame cfg s
  have turn : flowTurn cfg false s = performAll cfg (.dsep :: dword (drawOf cfg x (n + 1))) (extract cfg s) := by
    rw [← lastData_extract h.draws]
    rfl
  have some_drawn : drawStream cfg x (n + 1) ≠ [] := by simp [drawStream_succ]
  rw [turn]
  refine ⟨(extract_of_awaitsDraw h.draws).1.performAll_vn
    (List.forall_mem_cons.mpr ⟨rfl, fun _ => isMt_of_mem_dword⟩), ?_⟩
  rw [performAll, perform, performAll_dword_dout cfg _ (dsep_pend (extract cfg s)), dsep_dout, dout, List.map_append,
    h.symbols, drawStream_succ cfg x (n + 1), debias_renderSeq_concat some_drawn]
  simp [symbolCh]

/-- The turns after the first, one value each. -/
theorem flowTurns_flowAt {cfg : Config} {x : Word} {out : List Ch} (k : Nat) {n : Nat} {s : State}
    (h : FlowAt cfg x out (n + 1) s) : FlowAt cfg x out (n + 1 + k) (flowTurns cfg k s) := by
  induction k generalizing n s with
  | zero => exact h
  | succ k ih =>
    rw [← Nat.succ_add_eq_add_succ]
    exact ih (flowTurn_later h)

/-- The flow ends with a `DEND` after all its values (R185). -/
theorem dataFlow_eq_dend (cfg : Config) (x : Word) (k : Nat) {s : State} (h : s.pend = .none) :
    ∃ t, dataFlow cfg x k s = dend t ∧ FlowAt cfg x (s.dout.map symbolCh) k t := by
  have start := seed_flowAt cfg x s
  cases k with
  | zero => exact ⟨seed x s, rfl, start⟩
  | succ n =>
    refine ⟨flowTurns cfg n (flowTurn cfg true (seed x s)), rfl, ?_⟩
    rw [Nat.add_comm n 1]
    exact flowTurns_flowAt n (flowTurn_first start h)

/-- Settles O56: the turns' invariant `FlowAt` at the final `DEND`, which emits nothing and empties the latch. -/
theorem dataFlowOutput : Obligations.DataFlowOutput := by
  intro cfg x k s h
  obtain ⟨t, ht, flow⟩ := dataFlow_eq_dend cfg x k h
  rw [ht, dend_dout]
  exact ⟨flow.symbols, dend_pend t⟩

end Sys2Proof.Machine
end

