-- ==== Sys2Proof/Proofs/Errors.lean ====
section
/-! SUPPORT. The status of every answer: which one command can fail, and in which states (spec/60_exceptions.md R200, R201, R203). -/

namespace Sys2Proof.Machine

theorem Status.bits_ne_three (st : Status) : st.bits ≠ 0b11#2 := by cases st <;> decide

/-- Every command but `EXTRACT` is answered `OK`, 0 (R203). -/
theorem perform_rsps_of_ne_extract (cfg : Config) {i : Instr} (h : i ≠ .extract) (s : State) :
    (perform cfg i s).rsps = s.rsps ++ [okResponse 0#32] :=
  rsps_of_answer (perform_transfers_of_ne_extract cfg h s)

/-- The one response of every command: `ERR_UNSEEDED` to an unseeded `EXTRACT` (R201), `OK` to all else (R200, R203). -/
theorem perform_rsps_cases (cfg : Config) (i : Instr) (s : State) :
    (i = .extract ∧ s.seeded = false ∧
      (perform cfg i s).rsps = s.rsps ++ [{ status := .errUnseeded, data := 0#32 }]) ∨
    ∃ d, (perform cfg i s).rsps = s.rsps ++ [okResponse d] := by
  by_cases hi : i = .extract
  · subst hi
    rcases extract_transfers_cases cfg s with ⟨un, ht⟩ | ⟨-, p, -, ht⟩
    · exact .inl ⟨rfl, un, rsps_of_answer ht⟩
    · exact .inr ⟨_, rsps_of_answer ht⟩
  · exact .inr ⟨_, perform_rsps_of_ne_extract cfg hi s⟩

/-- No command unseeds the unit (R23). -/
theorem perform_keeps_seeded (cfg : Config) (i : Instr) {s : State} (h : s.seeded = true) :
    (perform cfg i s).seeded = true := by
  cases i with
  | seed x => exact seed_seeded x s
  | extract => exact (extract_streamPlace cfg h).1
  | dbit b => exact (perform_vn_sameMt cfg (i := .dbit b) rfl s).seeded.symm.trans h
  | dsep => exact (perform_vn_sameMt cfg (i := .dsep) rfl s).seeded.symm.trans h
  | dend => exact (perform_vn_sameMt cfg (i := .dend) rfl s).seeded.symm.trans h

/-- A seeded unit answers every command `OK` (R200). -/
theorem perform_rsps_of_seeded (cfg : Config) (i : Instr) {s : State} (h : s.seeded = true) :
    ∃ d, (perform cfg i s).rsps = s.rsps ++ [okResponse d] := by
  rcases perform_rsps_cases cfg i s with ⟨-, un, -⟩ | answered
  · exact absurd (h.symm.trans un) Bool.noConfusion
  · exact answered

/-- Along a sequence the unit stays seeded, and so every command of it is answered `OK` (R200), under every configuration. -/
theorem performAll_rsps_of_seeded (cfg : Config) (is : List Instr) {s : State} (h : s.seeded = true) :
    ∃ rs, (performAll cfg is s).rsps = s.rsps ++ rs ∧ rs.length = is.length ∧ AllOk rs ∧
      (performAll cfg is s).seeded = true := by
  induction is generalizing s with
  | nil => exact ⟨[], (List.append_nil _).symm, rfl, fun _ hr => absurd hr List.not_mem_nil, h⟩
  | cons i is ih =>
    obtain ⟨d, first⟩ := perform_rsps_of_seeded cfg i h
    obtain ⟨rs, later, len, ok, seeded⟩ := ih (perform_keeps_seeded cfg i h)
    refine ⟨okResponse d :: rs, ?_, congrArg (· + 1) len, List.forall_mem_cons.mpr ⟨rfl, ok⟩, seeded⟩
    rw [performAll, later, first, List.append_assoc, List.singleton_append]

/-- Settles O22: the effect is error entry (`execIn_extract_unseeded`); and of the answers an accepted word can have
(`accept_cases`, `perform_rsps_cases`) one alone has the status. -/
theorem unseededDrawRefused : Obligations.UnseededDrawRefused := by
  refine ⟨rfl, fun s un => ?_, fun w s t r ha hr hst => ?_⟩
  · rw [exec_eq_execIn]
    exact execIn_extract_unseeded hardware un
  · have status_eq {r' : Response} (h : t.rsps = s.rsps ++ [r']) : r'.status = .errUnseeded := by
      rw [hr, List.append_cancel_left_eq, List.singleton_inj] at h
      exact h ▸ hst
    rcases accept_cases w s with ⟨i, hd, hp⟩ | ⟨why, -, hp⟩
    · obtain rfl : t = perform hardware i s := Host.Outcome.next.inj (ha.symm.trans hp)
      rcases perform_rsps_cases hardware i s with ⟨rfl, un, -⟩ | ⟨d, answered⟩
      · exact ⟨hd, un⟩
      · exact nomatch status_eq answered
    · obtain rfl : t = s.raise .errIllegal := Host.Outcome.next.inj (ha.symm.trans hp)
      exact nomatch status_eq (State.raise_rsps .errIllegal s)

/-- Settles O46, by induction on the sequence (`performAll_rsps_of_seeded`) at this hardware's configuration. -/
theorem seededUnitNeverErrs : Obligations.SeededUnitNeverErrs := fun is s h => by
  obtain ⟨rs, answered⟩ := performAll_rsps_of_seeded hardware is h
  exact ⟨_, rs, execAll_eq_performAll is s, answered⟩

/-- Settles O47: the codes are the definition's own, and the answer is `perform_rsps_of_ne_extract`. -/
theorem noOtherErrors : Obligations.NoOtherErrors := by
  refine ⟨rfl, rfl, rfl, Status.bits_ne_three, fun i s h => ?_⟩
  rw [exec_eq_execIn]
  exact ⟨_, execIn_eq_perform hardware i s, perform_rsps_of_ne_extract hardware h s⟩

end Sys2Proof.Machine
end

