-- ==== Sys2Proof/Proofs/Silence.lean ====
section
/-! SUPPORT. A step in which the host gives no command and does not assert `rst` (spec/70_reset_and_hazards.md R240). -/

namespace Sys2Proof.Machine

/-- A silent move is taken off `inputs` and has no other effect. -/
theorem step_silent {s : State} {rest : List HostMove} (h : s.inputs = .silent :: rest) :
    step s = .next (s.setInputs rest) := by
  rw [step_cons h, takeMoveBy]

/-- Settles O4: the two ways the host has of giving no command, no move to come (`step_nil`) and a silent move
(`step_silent`). -/
theorem noCommandNoChange : Obligations.NoCommandNoChange := fun _ =>
  ⟨step_nil, fun _ => step_silent⟩

end Sys2Proof.Machine
end

