-- ==== Sys2Proof/Proofs/CommandWords.lean ====
section
/-! SUPPORT. A word decodes to a command iff it is the command's encoding; a response word reads back as a response iff it is that
response's word; and the words the assembler makes of a line (spec/30_encoding.md R82 to R88, R92, R93). -/

namespace Sys2Proof

open Machine

/-- A word is given by its two fields (R81). -/
theorem eq_wordOf_iff (w : CmdWord) (c : BitVec 4) (m : Word) : w = wordOf c m ↔ opcOf w = c ∧ immOf w = m := by
  conv_lhs => rw [← wordOf_fields w]
  exact wordOf_inj

/-- The operand field of format `B` (R82, R83). -/
theorem immOf_eq_bit_iff (w : CmdWord) (b : Bool) :
    immOf w = (BitVec.ofBool b).setWidth 32 ↔ upperImmOf w = 0#31 ∧ bitOf w = b := by
  have bit : bitOf w = decide (w.toNat % 2 = 1) := by
    rw [bitOf, BitVec.getLsbD, Nat.testBit_zero]
  rw [bit, ← BitVec.toNat_inj, ← BitVec.toNat_inj, immOf_toNat, upperImmOf_toNat]
  cases b with
  | false =>
    rw [decide_eq_false_iff_not]
    show w.toNat % 2 ^ 32 = 0 ↔ w.toNat % 2 ^ 32 / 2 = 0 ∧ ¬ w.toNat % 2 = 1
    omega
  | true =>
    rw [decide_eq_true_iff]
    show w.toNat % 2 ^ 32 = 1 ↔ w.toNat % 2 ^ 32 / 2 = 0 ∧ w.toNat % 2 = 1
    omega

/-- The words with the fields of a command are its encoding and no other (R82 to R84). -/
theorem fits_iff_eq_encode {i : Instr} {w : CmdWord} : i.Fits w ↔ w = encode i := by
  cases i with
  | seed x => exact (eq_wordOf_iff w 0x1#4 x).symm
  | extract => exact (eq_wordOf_iff w 0x2#4 0#32).symm
  | dbit b => exact (and_congr_right fun _ => (immOf_eq_bit_iff w b).symm).trans (eq_wordOf_iff w 0x4#4 _).symm
  | dsep => exact (eq_wordOf_iff w 0x5#4 0#32).symm
  | dend => exact (eq_wordOf_iff w 0x6#4 0#32).symm

/-- Decoding and encoding are inverse to each other (R84, R86). -/
theorem decode_eq_command_iff_eq_encode {w : CmdWord} {i : Instr} : decode w = .command i ↔ w = encode i :=
  decode_eq_command_iff.trans fits_iff_eq_encode

@[simp] theorem decode_encode (i : Instr) : decode (encode i) = .command i := decode_eq_command_iff_eq_encode.mpr rfl

/-- Settles O12: the encoding has the command's fields (`fits_iff_eq_encode`), off which the decoder reads the command. -/
theorem decodeEncodeRoundTrip : Obligations.DecodeEncodeRoundTrip := decode_encode

/-- Settles O13: the decoder reads a command off no word but its encoding. -/
theorem encodeDecodeRoundTrip : Obligations.EncodeDecodeRoundTrip := fun _ _ h =>
  (decode_eq_command_iff_eq_encode.mp h).symm

/-- Settles O14: the legal words are the encodings of their commands; the three illegal ones are evaluated. -/
theorem sampleWordsDecode : Obligations.SampleWordsDecode :=
  ⟨decode_encode (.seed 5489#32), decode_encode (.seed 4294967295#32), decode_encode .extract,
    decode_encode (.dbit false), decode_encode (.dbit true), decode_encode .dsep, decode_encode .dend,
    by decide, by decide, by decide⟩

namespace Machine

/-! Response words. -/

/-- A status code reads back as its status, and no other code does (R88). -/
theorem statusOf_eq_some_iff {b : BitVec 2} {st : Status} : statusOf b = some st ↔ b = st.bits := by
  constructor
  · intro h
    unfold statusOf at h
    split_ifs at h <;> (cases h; assumption)
  · rintro rfl
    cases st <;> rfl

/-- The response word as a number (R88). -/
theorem Response.bits_toNat (r : Response) : r.bits.toNat = r.status.bits.toNat * 2 ^ 32 + r.data.toNat := by
  rw [Response.bits, BitVec.toNat_append, ← Nat.shiftLeft_add_eq_or_of_lt r.data.isLt, Nat.shiftLeft_eq]

/-- A word reads back as a response iff it is the response's word (R88). -/
theorem responseOf_eq_some_iff {w : RspWord} {r : Response} : responseOf w = some r ↔ w = r.bits := by
  have fields : w.extractLsb' 32 2 ++ w.extractLsb' 0 32 = w := BitVec.extractLsb'_append_extractLsb' (w := 2)
  constructor
  · intro h
    unfold responseOf at h
    split at h
    · next st hst =>
      cases h
      rw [Response.bits, ← statusOf_eq_some_iff.mp hst, fields]
    · cases h
  · rintro rfl
    have status : statusOf (r.bits.extractLsb' 32 2) = some r.status := by
      rw [Response.bits, BitVec.extractLsb'_append_eq_left, statusOf_eq_some_iff]
    have data : r.bits.extractLsb' 0 32 = r.data := BitVec.extractLsb'_append_eq_right
    rw [responseOf, status, data]

/-- The status code of a response word is not `11` (R88, U3). -/
theorem Response.bits_div_ne_three (r : Response) : r.bits.toNat / 2 ^ 32 ≠ 3 := by
  have code : r.status.bits.toNat ≠ 3 := fun h => r.status.bits_ne_three (BitVec.eq_of_toNat_eq h)
  have := r.data.isLt
  rw [r.bits_toNat]
  omega

/-- Settles O15: the number of a response word, and its reading as an equivalence. -/
theorem responseWordFields : Obligations.ResponseWordFields :=
  ⟨fun r => ⟨r.bits_toNat, responseOf_eq_some_iff.mpr rfl, r.bits_div_ne_three⟩,
    fun _ _ h => (responseOf_eq_some_iff.mp h).symm, by decide, by decide, by decide⟩

/-! The words of the assembler's lines. -/

/-- A program of one line. -/
theorem assemble_singleton (l : AsmLine) : assemble [l] = (assembleLine l).map (List.map encode) := by
  cases h : assembleLine l <;> simp [assemble, h]

/-- The range of the 32-bit operands (R92). -/
theorem isWordLiteral_iff (n : Int) : isWordLiteral n = true ↔ 0 ≤ n ∧ n ≤ 4294967295 := by
  rw [isWordLiteral, Bool.and_eq_true, decide_eq_true_eq, decide_eq_true_eq]

/-- The word of `SEED` as a number (R82, R84). -/
theorem encode_seed (n : Nat) (h : n < 2 ^ 32) : encode (.seed (low32 n)) = BitVec.ofNat 36 (0x100000000 + n) := by
  apply BitVec.eq_of_toNat_eq
  have word : (encode (.seed (low32 n))).toNat = 1 * 2 ^ 32 + n % 2 ^ 32 := wordOf_toNat 0x1#4 (low32 n)
  rw [word, BitVec.toNat_ofNat]
  omega

/-- A `SEED` line in range (R92). -/
theorem assemble_seed {n : Int} (h : 0 ≤ n) (h' : n ≤ 4294967295) :
    assemble [.seed n] = some [BitVec.ofNat 36 (0x100000000 + n.toNat)] := by
  have legal : (AsmLine.seed n).wf = true := (isWordLiteral_iff n).mpr ⟨h, h'⟩
  rw [assemble_singleton, assembleLine, if_pos legal, ← encode_seed n.toNat (by omega)]
  rfl

/-- A `SEED` line out of range (R92). -/
theorem assemble_seed_of_out_of_range {n : Int} (h : n < 0 ∨ 4294967295 < n) : assemble [.seed n] = none := by
  have illegal : ¬ (AsmLine.seed n).wf = true := fun legal => by
    have := (isWordLiteral_iff n).mp legal
    omega
  rw [assemble_singleton, assembleLine, if_neg illegal]
  rfl

/-- `DBIT` takes the two bits and nothing else (R92). -/
theorem assemble_dbit (b : Int) : assemble [.dbit b] =
    if b = 0 then some [0x400000000#36] else if b = 1 then some [0x400000001#36] else none := by
  by_cases zero : b = 0
  · subst zero
    rfl
  · by_cases one : b = 1
    · subst one
      rfl
    · have illegal : ¬ (AsmLine.dbit b).wf = true := by simp [AsmLine.wf, zero, one]
      rw [assemble_singleton, assembleLine, if_neg illegal, if_neg zero, if_neg one]
      rfl

/-- `DRAW n` is `n` draws (R93). -/
theorem assembleLine_draw (n : Nat) : assembleLine (.draw n) = some (List.replicate n .extract) := by
  have legal : (AsmLine.draw n).wf = true := by simp [AsmLine.wf]
  rw [assembleLine, if_pos legal, expandLine, Int.toNat_natCast]

/-- Settles O57: the lines with an operand by its range, the others by their one word. -/
theorem assemblerOperandRanges : Obligations.AssemblerOperandRanges :=
  ⟨fun _ => assemble_seed, fun _ => assemble_seed_of_out_of_range, assemble_dbit, rfl, rfl, rfl, assembleLine_draw⟩

end Machine

end Sys2Proof
end

