-- ==== Sys2Proof/Proofs/Moves.lean ====
section
/-! SUPPORT. What one step does, move by move, under every configuration: the one inversion of the step, and the statements that
follow from it (spec/00_scope.md R6, R11; spec/20_memory.md R58; spec/30_encoding.md R80; spec/70_reset_and_hazards.md R230,
R231, R245). -/

namespace Sys2Proof.Machine

/-! Accepting a word. -/

/-- A legal word is performed. -/
theorem acceptIn_of_command (cfg : Config) {w : CmdWord} {i : Instr} (h : decode w = .command i) (s : State) :
    acceptIn cfg w s = execIn cfg i s := by
  rw [acceptIn, acceptBy, h]

/-- An illegal word is answered by error entry (R202). -/
theorem acceptIn_of_illegal (cfg : Config) {w : CmdWord} {why : Illegal} (h : decode w = .illegal why) (s : State) :
    acceptIn cfg w s = .next (s.raise .errIllegal) := by
  rw [acceptIn, acceptBy, h]

/-- The words an encoder writes are accepted as their commands (R58). -/
@[simp] theorem accept_encode (i : Instr) : accept (encode i) = exec i := by
  funext s
  rw [accept_eq_acceptIn, acceptIn_of_command hardware (decode_encode i), exec_eq_execIn]

/-! Taking a move. -/

/-- A reset inside a command: the abandoned command's own symbol at most, and then the reset (R230). -/
theorem abandon_eq_hardReset (w : CmdWord) (s : State) :
    ∃ y : Option Symbol, abandon w s = (s.emitOpt y).hardReset ∧
      ∀ c, y = some c → ∃ i, decode w = .command i ∧ emission i s = some c := by
  unfold abandon
  cases h : decode w with
  | command i =>
    refine ⟨_, rfl, fun c hc => ⟨i, rfl, ?_⟩⟩
    split at hc
    · exact hc
    · cases hc
  | illegal why => exact ⟨Option.none, rfl, fun _ hc => nomatch hc⟩

/-- What each move of the host makes of a state, on the machine of a configuration. -/
inductive MoveEffect (cfg : Config) (s : State) : HostMove → State → Prop
  | silent : MoveEffect cfg s .silent s
  | command (i : Instr) : MoveEffect cfg s (.offer (encode i)) (perform cfg i s)
  | illegal {w : CmdWord} {why : Illegal} (h : decode w = .illegal why) :
    MoveEffect cfg s (.offer w) (s.raise .errIllegal)
  | rst {offered : Option CmdWord} : MoveEffect cfg s (.rst offered) s.hardReset
  | rstDuring {w : CmdWord} {y : Option Symbol}
    (h : ∀ c, y = some c → ∃ i, decode w = .command i ∧ emission i s = some c) :
    MoveEffect cfg s (.rstDuring w) (s.emitOpt y).hardReset

/-- Every move has its effect. -/
theorem takeMoveBy_effect (cfg : Config) (m : HostMove) (s : State) :
    ∃ t, takeMoveBy (execIn cfg) m s = .next t ∧ MoveEffect cfg s m t := by
  cases m with
  | silent => exact ⟨s, rfl, .silent⟩
  | offer w =>
    rcases acceptIn_cases cfg w s with ⟨i, hd, ha⟩ | ⟨why, hd, ha⟩
    · obtain rfl := decode_eq_command_iff_eq_encode.mp hd
      exact ⟨_, ha, .command i⟩
    · exact ⟨_, ha, .illegal hd⟩
  | rst offered => exact ⟨_, rfl, .rst⟩
  | rstDuring w =>
    obtain ⟨y, hy, sent⟩ := abandon_eq_hardReset w s
    exact ⟨_, congrArg Host.Outcome.next hy, .rstDuring sent⟩

/-- A step with a move to come answers a next state, which is the move's effect. -/
theorem stepIn_effect (cfg : Config) {s : State} {m : HostMove} {rest : List HostMove} (h : s.inputs = m :: rest) :
    ∃ t, stepIn cfg s = .next t ∧ MoveEffect cfg (s.setInputs rest) m t := by
  rw [stepIn_cons cfg h]
  exact takeMoveBy_effect cfg m (s.setInputs rest)

/-- Everything a step can do (R12, R240). -/
theorem stepIn_cases (cfg : Config) {s t : State} (h : stepIn cfg s = .next t) :
    (s.inputs = [] ∧ t = s) ∨ ∃ m rest, s.inputs = m :: rest ∧ MoveEffect cfg (s.setInputs rest) m t := by
  cases hi : s.inputs with
  | nil =>
    rw [stepIn_nil cfg hi, Host.Outcome.next.injEq] at h
    exact .inl ⟨rfl, h.symm⟩
  | cons m rest =>
    obtain ⟨t', ht, he⟩ := stepIn_effect cfg hi
    obtain rfl := Host.Outcome.next.inj (h.symm.trans ht)
    exact .inr ⟨m, rest, rfl, he⟩

/-- The effect of a move that this hardware's step has taken. -/
theorem moveEffect_of_step {s t : State} {m : HostMove} {rest : List HostMove} (hi : s.inputs = m :: rest)
    (h : step s = .next t) : MoveEffect hardware (s.setInputs rest) m t := by
  obtain ⟨t', ht, he⟩ := stepIn_effect hardware hi
  rw [step_eq_stepIn, ht, Host.Outcome.next.injEq] at h
  exact h ▸ he

/-- What every move keeps, every step keeps (the induction over the moves, said once). -/
theorem stepIn_keeps (cfg : Config) {P : State → Prop} (inputs : ∀ ms s, P s → P (s.setInputs ms))
    (command : ∀ i s, P s → P (perform cfg i s)) (illegal : ∀ s, P s → P (s.raise .errIllegal))
    (reset : ∀ y s, P s → P (s.emitOpt y).hardReset) {s t : State} (h : stepIn cfg s = .next t) (hs : P s) : P t := by
  rcases stepIn_cases cfg h with ⟨-, rfl⟩ | ⟨m, rest, -, he⟩
  · exact hs
  · have taken := inputs rest s hs
    cases he with
    | silent => exact taken
    | command i => exact command i _ taken
    | illegal => exact illegal _ taken
    | rst => exact reset Option.none _ taken
    | rstDuring => exact reset _ _ taken

/-! The statements. -/

/-- Settles O3: of the moves' effects, a command keeps the flag (`perform_keeps_seeded`), and the two that clear it are resets. -/
theorem onlyResetClearsSeeded : Obligations.OnlyResetClearsSeeded := by
  intro s t m rest hi ht seeded cleared
  cases moveEffect_of_step hi ht with
  | silent => exact absurd (seeded.symm.trans cleared) Bool.noConfusion
  | command i =>
    have kept : (perform hardware i (s.setInputs rest)).seeded = true := perform_keeps_seeded hardware i seeded
    exact absurd (kept.symm.trans cleared) Bool.noConfusion
  | illegal => exact absurd (seeded.symm.trans cleared) Bool.noConfusion
  | rst => rfl
  | rstDuring => rfl

/-- Every command has exactly one response (R11, R89). -/
theorem perform_rsps (cfg : Config) (i : Instr) (s : State) : ∃ r, (perform cfg i s).rsps = s.rsps ++ [r] := by
  rcases perform_rsps_cases cfg i s with ⟨-, -, refused⟩ | ⟨d, answered⟩
  · exact ⟨_, refused⟩
  · exact ⟨_, answered⟩

/-- Settles O8: every step has an effect (`stepIn_effect`), and of the effects only those of an offered word respond, once. -/
theorem everyStepCompletes : Obligations.EveryStepCompletes := by
  intro s
  rw [step_eq_stepIn]
  cases hi : s.inputs with
  | nil => exact ⟨s, stepIn_nil hardware hi, rfl⟩
  | cons m rest =>
    obtain ⟨t, ht, he⟩ := stepIn_effect hardware hi
    refine ⟨t, ht, ?_⟩
    cases he with
    | silent => rfl
    | command i =>
      obtain ⟨r, hr⟩ := perform_rsps hardware i (s.setInputs rest)
      simp [hr]
    | illegal => simp
    | rst => rfl
    | rstDuring => simp

/-- The commands as the MT unit sees them: its own two, and those of the VN unit (R62, R84). -/
theorem instr_kinds (i : Instr) : (∃ x, i = .seed x) ∨ i = .extract ∨ isMt i = false := by
  cases i with
  | seed x => exact .inl ⟨x, rfl⟩
  | extract => exact .inr (.inl rfl)
  | dbit b => exact .inr (.inr rfl)
  | dsep => exact .inr (.inr rfl)
  | dend => exact .inr (.inr rfl)

/-- The commands that write state words: `SEED`, and the `EXTRACT` that twists (R20, R55). -/
theorem perform_words_cases (cfg : Config) (i : Instr) (s : State) :
    (perform cfg i s).words = s.words ∨ (∃ x, i = .seed x) ∨ (i = .extract ∧ s.seeded = true ∧ s.index.val = 624) := by
  rcases instr_kinds i with ⟨x, rfl⟩ | rfl | vn
  · exact .inr (.inl ⟨x, rfl⟩)
  · rcases extract_cases cfg s with ⟨-, he⟩ | ⟨seeded, exhausted, -⟩ | ⟨-, within, he⟩
    · exact .inl (by rw [perform, he]; rfl)
    · exact .inr (.inr ⟨rfl, seeded, exhausted⟩)
    · exact .inl (by rw [perform, he]; rfl)
  · exact .inl (perform_vn_sameMt cfg vn s).words.symm

/-- Settles O9: a move that is no reset and writes a word is a command that does (`perform_words_cases`). -/
theorem wordsWrittenOnlyBySeedTwistReset : Obligations.WordsWrittenOnlyBySeedTwistReset := by
  intro s t m rest hi ht written
  cases moveEffect_of_step hi ht with
  | silent => exact absurd rfl written
  | command i =>
    rcases perform_words_cases hardware i (s.setInputs rest) with kept | ⟨x, rfl⟩ | ⟨rfl, twists⟩
    · exact absurd kept written
    · exact .inr (.inl ⟨x, rfl⟩)
    · exact .inr (.inr ⟨rfl, twists⟩)
  | illegal => exact absurd rfl written
  | rst => exact .inl rfl
  | rstDuring => exact .inl rfl

/-- Settles O2: the step takes the reset move; inside a command the reset follows the command's own symbol, if that had gone
(`abandon_eq_hardReset`). -/
theorem resetDuringRun : Obligations.ResetDuringRun := by
  intro s rest offered w
  constructor
  · intro hi
    exact ⟨(s.setInputs rest).hardReset, step_cons hi, rfl, rfl, rfl, rfl, rfl⟩
  · intro hi
    obtain ⟨y, hy, sent⟩ := abandon_eq_hardReset w (s.setInputs rest)
    refine ⟨((s.setInputs rest).emitOpt y).hardReset, (step_cons hi).trans (congrArg Host.Outcome.next hy), rfl, rfl, rfl,
      by simp, by simp, ?_⟩
    cases y with
    | none => exact .inl rfl
    | some c =>
      obtain ⟨i, hd, he⟩ := sent c rfl
      exact .inr ⟨i, c, hd, he, rfl⟩

/-- Settles O5: the step takes the offer off the moves to come and accepts its word. -/
theorem stepRunsDecodedInstr : Obligations.StepRunsDecodedInstr := by
  intro s w rest hi
  have accepts : step s = accept w (s.setInputs rest) := step_cons hi
  refine ⟨accepts, fun i hd => ?_, fun why hd => ?_⟩
  · rw [accepts, accept_eq_acceptIn, acceptIn_of_command hardware hd, exec_eq_execIn]
    rfl
  · rw [accepts, accept_of_illegal _ hd]
    rfl

/-- What a table word decodes to is what its command word decodes to (log entry 13). -/
theorem decodeTableWord_eq_some_iff {nbits w : Nat} {i : Instr} :
    decodeTableWord nbits w = some i ↔ cmdOfTableWord nbits w = some (encode i) := by
  unfold decodeTableWord
  cases cmdOfTableWord nbits w with
  | none => simp
  | some c =>
    rw [Option.some_inj, ← decode_eq_command_iff_eq_encode]
    cases h : decode c <;> simp [h]

/-- Settles O6: the table word is the encoding of its instruction, and the placed move is the first one taken. -/
theorem tableWordRunsNext : Obligations.TableWordRunsNext := by
  intro s nbits w i h
  have placed : s.withFetchWord nbits w = s.setInputs (.offer (encode i) :: s.inputs) := by
    rw [State.withFetchWord, offerTableWord, decodeTableWord_eq_some_iff.mp h]
  have taken : step (s.setInputs (.offer (encode i) :: s.inputs)) = accept (encode i) s :=
    step_cons (s := s.setInputs (.offer (encode i) :: s.inputs)) rfl
  rw [placed, taken, accept_encode]

/-- A command neither reads nor writes the moves to come. -/
theorem perform_setInputs (cfg : Config) (i : Instr) (ms : List HostMove) (s : State) :
    perform cfg i (s.setInputs ms) = (perform cfg i s).setInputs ms := by
  cases i with
  | seed x => rfl
  | extract =>
    rcases extract_cases cfg s with ⟨un, he⟩ | ⟨sd, ex, he⟩ | ⟨sd, within, he⟩
    · exact (extract_unseeded cfg (s := s.setInputs ms) un).trans (congrArg (State.setInputs ms) he.symm)
    · exact (extract_exhausted cfg (s := s.setInputs ms) sd ex).trans (congrArg (State.setInputs ms) he.symm)
    · exact (extract_within cfg (s := s.setInputs ms) sd within).trans (congrArg (State.setInputs ms) he.symm)
  | dbit b =>
    rw [perform, perform, dbit, dbit, State.setInputs_pend]
    cases pairSymbol s.pend b <;> rfl
  | dsep => rfl
  | dend => rfl

/-- Accepting a word neither reads nor writes the moves to come. -/
theorem accept_setInputs (w : CmdWord) (s : State) :
    ∃ t : State, ∀ ms, accept w (s.setInputs ms) = .next (t.setInputs ms) := by
  cases hd : decode w with
  | command i =>
    refine ⟨perform hardware i s, fun ms => ?_⟩
    rw [accept_eq_acceptIn, acceptIn_of_command hardware hd, execIn_eq_perform, perform_setInputs]
  | illegal why => exact ⟨s.raise .errIllegal, fun ms => accept_of_illegal _ hd⟩

/-- The steps that take the offers of a list of words accept the words in order (R58). -/
theorem runSteps_offers (ws : List CmdWord) (rest : List HostMove) {s : State} (h : s.inputs = ws.map .offer ++ rest) :
    runSteps ws.length s = acceptAll ws (s.setInputs rest) := by
  induction ws generalizing s with
  | nil =>
    obtain rfl : s.inputs = rest := h
    rfl
  | cons w ws ih =>
    obtain ⟨t, ht⟩ := accept_setInputs w s
    have first : step s = .next (t.setInputs (ws.map .offer ++ rest)) := (step_cons h).trans (ht _)
    have later := ih (s := t.setInputs (ws.map .offer ++ rest)) rfl
    rw [List.length_cons, runSteps, first, acceptAll, inOrder, ht rest]
    exact later

/-- The words of commands are accepted as the commands are executed (R58). -/
theorem acceptAll_map_encode (is : List Instr) (s : State) : acceptAll (is.map encode) s = execAll is s := by
  induction is generalizing s with
  | nil => rfl
  | cons i is ih =>
    rw [List.map_cons, acceptAll, inOrder, accept_encode, execAll, inOrder]
    cases exec i s with
    | next t => exact ih t
    | fault r => rfl
    | refused r => rfl

/-- Settles O7: by induction on the offered words (`runSteps_offers`); commands are offered as their encodings. -/
theorem offeredWordsRunInOrder : Obligations.OfferedWordsRunInOrder := by
  refine ⟨fun is rest s h => ?_, fun ws rest s h => runSteps_offers ws rest h⟩
  have offered : s.inputs = (is.map encode).map .offer ++ rest := by
    rw [h, offers, List.map_map]
    rfl
  have run := runSteps_offers (is.map encode) rest offered
  rwa [List.length_map, acceptAll_map_encode] at run

/-- Settles O33: the configuration is `Config.doc`; the rest are the laws that tie `exec`, `accept` and `step` to it. -/
theorem machineRunsDocConfig : Obligations.MachineRunsDocConfig :=
  ⟨rfl, fun i s => ⟨by rw [exec_eq_execIn], by rw [exec_eq_execIn, execIn_eq_perform]⟩,
    fun w s => by rw [accept_eq_acceptIn], step_eq_stepIn⟩

/-- Settles O34: `stepIn_nil` and, for each move, `stepIn_cons`; a reset does not reach the performance of a command. -/
theorem everyConfigSteps : Obligations.EveryConfigSteps := by
  intro cfg s
  refine ⟨stepIn_nil cfg, fun m rest hi => ?_⟩
  have taken := stepIn_cons cfg hi
  cases m with
  | silent => exact taken
  | offer w =>
    refine ⟨taken, ?_⟩
    have accepted : stepIn cfg s = acceptIn cfg w (s.setInputs rest) := taken
    cases hd : decode w with
    | command i => exact accepted.trans (acceptIn_of_command cfg hd _)
    | illegal why => exact accepted.trans (acceptIn_of_illegal cfg hd _)
  | rst offered => exact taken.trans (step_cons hi).symm
  | rstDuring w => exact taken.trans (step_cons hi).symm

/-- The one answer of an accepted word: at most one symbol, and a response (R80, R89). -/
theorem accept_answers (w : CmdWord) (s : State) : ∃ (t : State) (ys : List Symbol) (r : Response),
    accept w s = .next t ∧ ys.length ≤ 1 ∧ t.transfers = s.transfers ++ answer ys r := by
  rcases accept_cases w s with ⟨i, -, ha⟩ | ⟨why, -, ha⟩
  · by_cases hi : i = .extract
    · subst hi
      rcases extract_transfers_cases hardware s with ⟨-, ht⟩ | ⟨-, p, -, ht⟩
      · exact ⟨_, [], _, ha, Nat.zero_le 1, ht⟩
      · exact ⟨_, [], _, ha, Nat.zero_le 1, ht⟩
    · exact ⟨_, _, _, ha, Option.length_toList_le, perform_transfers_of_ne_extract hardware hi s⟩
  · exact ⟨_, [], _, ha, Nat.zero_le 1, State.raise_transfers .errIllegal s⟩

/-- Settles O45, by induction on the words, each with its own answer (`accept_answers`). -/
theorem transfersOfAcceptedWords : Obligations.TransfersOfAcceptedWords := by
  intro ws
  induction ws with
  | nil => exact fun s => ⟨s, [], rfl, rfl, fun _ h => absurd h List.not_mem_nil, (List.append_nil _).symm⟩
  | cons w ws ih =>
    intro s
    obtain ⟨t, ys, r, ha, one, ht⟩ := accept_answers w s
    obtain ⟨u, as, hu, len, ones, transfers⟩ := ih t
    refine ⟨u, (ys, r) :: as, ?_, congrArg (· + 1) len, List.forall_mem_cons.mpr ⟨one, ones⟩, ?_⟩
    · rw [acceptAll, inOrder, ha]
      exact hu
    · rw [transfers, ht, List.flatMap_cons, List.append_assoc]

/-- Settles O48: the answers with an error status are those of error entry, an illegal word's and an unseeded `EXTRACT`'s. -/
theorem errorsLeaveNoTrace : Obligations.ErrorsLeaveNoTrace := by
  intro w s t r ha hr hst
  have entry {st : Status} (ht : t = s.raise st) : r.data = 0#32 ∧ t = { s with transfers := s.transfers ++ [.rsp r] } := by
    subst ht
    rw [State.raise_rsps, List.append_cancel_left_eq, List.singleton_inj] at hr
    subst hr
    exact ⟨rfl, rfl⟩
  rcases accept_cases w s with ⟨i, -, hp⟩ | ⟨why, -, hp⟩
  · obtain rfl : t = perform hardware i s := Host.Outcome.next.inj (ha.symm.trans hp)
    rcases perform_rsps_cases hardware i s with ⟨rfl, un, -⟩ | ⟨d, answered⟩
    · exact entry (extract_unseeded hardware un)
    · rw [hr, List.append_cancel_left_eq, List.singleton_inj] at answered
      exact absurd (congrArg Response.status answered) hst
  · exact entry (Host.Outcome.next.inj (ha.symm.trans hp))

end Sys2Proof.Machine
end

