-- ==== Sys2Proof/Proofs/Invariants.lean ====
section
/-! SUPPORT. The two invariants, legality and lineage, kept by every command, by error entry and by reset, and so by the step of
every configuration (`stepIn_keeps`; spec/10_state.md R33, R37; spec/30_encoding.md R88). -/

namespace Sys2Proof.Machine

/-! Legality. -/

/-- The response of every command is legal (R88). -/
theorem perform_rsps_legal (cfg : Config) (i : Instr) (s : State) :
    ∃ r, LegalResponse r ∧ (perform cfg i s).rsps = s.rsps ++ [r] := by
  rcases perform_rsps_cases cfg i s with ⟨-, -, refused⟩ | ⟨d, answered⟩
  · exact ⟨_, fun _ => rfl, refused⟩
  · exact ⟨_, fun err => absurd rfl err, answered⟩

/-- A unit that is unseeded after a command has the index it had: an unseeded `EXTRACT` leaves it, and so does the VN unit. -/
theorem perform_index_of_unseeded (cfg : Config) (i : Instr) {s : State} (h : (perform cfg i s).seeded = false) :
    s.seeded = false ∧ (perform cfg i s).index = s.index := by
  have un : s.seeded = false := by
    cases hs : s.seeded with
    | false => rfl
    | true => exact absurd ((perform_keeps_seeded cfg i hs).symm.trans h) Bool.noConfusion
  rcases instr_kinds i with ⟨x, rfl⟩ | rfl | vn
  · exact absurd h Bool.noConfusion
  · exact ⟨un, by rw [perform, extract_unseeded cfg un, State.raise_index]⟩
  · exact ⟨un, (perform_vn_sameMt cfg vn s).index.symm⟩

/-- One legal response more keeps the responses legal. -/
theorem legal_append {rs : List Response} {r : Response} (h : ∀ q ∈ rs, LegalResponse q) (hr : LegalResponse r) :
    ∀ q ∈ rs ++ [r], LegalResponse q := by
  intro q hq
  rcases List.mem_append.mp hq with old | new
  · exact h q old
  · rwa [List.mem_singleton.mp new]

/-- Every command keeps legality (R33 (c), R88). -/
theorem legalState_perform (cfg : Config) (i : Instr) (s : State) (h : LegalState s) : LegalState (perform cfg i s) := by
  obtain ⟨sentinel, legal⟩ := h
  obtain ⟨r, hr, answered⟩ := perform_rsps_legal cfg i s
  refine ⟨fun un => ?_, ?_⟩
  · obtain ⟨un', same⟩ := perform_index_of_unseeded cfg i un
    rw [same, sentinel un']
  · rw [answered]
    exact legal_append legal hr

/-- Every step keeps legality, under every configuration. -/
theorem legalState_stepIn {cfg : Config} {s t : State} (h : stepIn cfg s = .next t) : LegalState s → LegalState t := by
  refine stepIn_keeps cfg (fun _ _ hs => hs) (legalState_perform cfg) ?_ ?_ h
  · rintro s ⟨sentinel, legal⟩
    refine ⟨sentinel, ?_⟩
    rw [State.raise_rsps]
    exact legal_append legal fun _ => rfl
  · rintro y s ⟨-, legal⟩
    refine ⟨fun _ => rfl, ?_⟩
    rw [State.hardReset_rsps, State.emitOpt_rsps]
    exact legal

/-! Lineage. -/

/-- The lineage is a property of the MT unit's registers. -/
theorem Lineage.congr {cfg : Config} {s s' : State} (h : Lineage cfg s) (same : SameMt s s') : Lineage cfg s' := by
  obtain ⟨hw, hi, hs⟩ := same
  rwa [Lineage, ← hw, ← hi, ← hs]

/-- An unseeded unit has no lineage to show. -/
theorem lineage_of_unseeded (cfg : Config) {s : State} (h : s.seeded = false) : Lineage cfg s :=
  fun hs => absurd (hs.symm.trans h) Bool.noConfusion

/-- A draw keeps the lineage: the twist goes to the next generation, and a unit that draws without one is not in generation 0
(R37, R123). -/
theorem lineage_extract {cfg : Config} {s : State} (h : Lineage cfg s) : Lineage cfg (extract cfg s) := by
  rcases extract_cases cfg s with ⟨un, he⟩ | ⟨sd, -, he⟩ | ⟨sd, within, he⟩
  · rw [he]
    exact lineage_of_unseeded cfg un
  · obtain ⟨x, k, hw, -⟩ := h sd
    rw [he]
    exact fun _ => ⟨x, k + 1, congrArg (twistVec cfg) hw, fun hk => nomatch hk⟩
  · obtain ⟨x, k, hw, hk⟩ := h sd
    rw [he]
    refine fun _ => ⟨x, k, hw, fun k0 => ?_⟩
    exact absurd (congrArg Fin.val (hk k0)) (Nat.ne_of_lt within)

/-- Every command keeps the lineage (R37): `SEED` starts generation 0, and the VN unit leaves the MT unit alone. -/
theorem lineage_perform (cfg : Config) (i : Instr) (s : State) (h : Lineage cfg s) : Lineage cfg (perform cfg i s) := by
  rcases instr_kinds i with ⟨x, rfl⟩ | rfl | vn
  · exact fun _ => ⟨x, 0, seedVec_congr s.words _ x, fun _ => rfl⟩
  · exact lineage_extract h
  · exact h.congr (perform_vn_sameMt cfg vn s)

/-- Every step keeps the lineage of its configuration. -/
theorem lineage_stepIn {cfg : Config} {s t : State} (h : stepIn cfg s = .next t) : Lineage cfg s → Lineage cfg t :=
  stepIn_keeps cfg (fun _ _ hs => hs) (lineage_perform cfg) (fun _ hs => hs) (fun _ _ _ => lineage_of_unseeded cfg rfl) h

/-! The statements. -/

/-- Settles O51: the two invariants, each kept by every move. -/
theorem everyConfigKeepsInvariants : Obligations.EveryConfigKeepsInvariants := fun _ _ _ h =>
  ⟨legalState_stepIn h, lineage_stepIn h⟩

/-- Settles O49: legality under this hardware's configuration. -/
theorem stepKeepsLegalState : Obligations.StepKeepsLegalState := fun s _ hs h =>
  legalState_stepIn ((step_eq_stepIn s).symm.trans h) hs

/-- Settles O50: the lineage under this hardware's configuration. -/
theorem stepKeepsLineage : Obligations.StepKeepsLineage := fun s _ hs h =>
  lineage_stepIn ((step_eq_stepIn s).symm.trans h) hs

/-- Settles O52: after reset the index is the sentinel, no response has been given, and the unit is unseeded. -/
theorem resetMeetsInvariants : Obligations.ResetMeetsInvariants := by
  refine ⟨⟨fun _ => State.reset_index, ?_⟩, fun cfg => lineage_of_unseeded cfg State.reset_seeded⟩
  rw [State.reset_rsps]
  exact fun _ h => absurd h List.not_mem_nil

end Sys2Proof.Machine
end

