-- ==== Sys2Proof/Proofs/Draws.lean ====
section
/-! SUPPORT. `EXTRACT` under every configuration, the draw index, the draws after a `SEED` with VN commands between them, and what
does not depend on the tempering shift (spec/00_scope.md R6; spec/10_state.md R28; spec/40_mt_core.md R111, R113, R123). -/

namespace Sys2Proof.Machine

/-- Only `EXTRACT` depends on the configuration (R6). -/
theorem execIn_of_ne_extract (cfg : Config) {i : Instr} (h : i ≠ .extract) (s : State) : execIn cfg i s = exec i s := by
  cases i with
  | extract => exact absurd rfl h
  | seed => rfl
  | dbit => rfl
  | dsep => rfl
  | dend => rfl

/-- Settles O21: the three cases of `EXTRACT` under a configuration; the refusal is the same under all. -/
theorem everyConfigDraws : Obligations.EveryConfigDraws := by
  refine fun cfg s => ⟨fun un => ?_, fun h sd => execIn_extract_within cfg sd h,
    fun h sd => execIn_extract_exhausted cfg sd h, fun i hi => execIn_of_ne_extract cfg hi s⟩
  rw [exec_eq_execIn, execIn_extract_unseeded cfg un, execIn_extract_unseeded hardware un]

/-- The index after an `EXTRACT` (R28, R111). -/
theorem extract_index_val (cfg : Config) (s : State) : (extract cfg s).index.val =
    if s.seeded = false then s.index.val else if s.index.val < 624 then s.index.val + 1 else 1 := by
  rcases extract_cases cfg s with ⟨un, he⟩ | ⟨sd, exhausted, he⟩ | ⟨sd, within, he⟩
  · rw [he, un, State.raise_index, if_pos rfl]
  · rw [he, sd, exhausted]
    rfl
  · rw [he, sd, if_pos within]
    rfl

/-- Settles O23: `SEED` sets the index, `extract_index_val` is `EXTRACT`'s, and the VN unit has no index. -/
theorem indexSuccession : Obligations.IndexSuccession := fun s x b =>
  ⟨seed x s, extract hardware s, dbit b s, dsep s, dend s, rfl, rfl, rfl, rfl, rfl, rfl, extract_index_val hardware s,
    (perform_vn_sameMt hardware (i := .dbit b) rfl s).index.symm,
    (perform_vn_sameMt hardware (i := .dsep) rfl s).index.symm,
    (perform_vn_sameMt hardware (i := .dend) rfl s).index.symm⟩

/-! The draws after a `SEED`. -/

/-- Draws and VN commands in any order: the place in the stream moves on by the draws (R62, R123). -/
theorem AwaitsDraw.performAll {cfg : Config} {x : Word} {n : Nat} {is : List Instr}
    (his : ∀ i ∈ is, i = .extract ∨ isMt i = false) {s : State} (h : AwaitsDraw cfg x n s) :
    AwaitsDraw cfg x (n + is.count .extract) (performAll cfg is s) := by
  induction is generalizing n s with
  | nil => exact h
  | cons i is ih =>
    obtain ⟨hi, later⟩ := List.forall_mem_cons.mp his
    rcases hi with rfl | vn
    · have next := ih later (extract_of_awaitsDraw h).1
      rwa [Nat.add_assoc, Nat.add_comm 1, ← List.count_cons_self] at next
    · have other : i ≠ .extract := by
        rintro rfl
        exact Bool.noConfusion vn
      rw [List.count_cons_of_ne other]
      exact ih later (h.congr (perform_vn_sameMt cfg vn s))

/-- The index and the words before draw `n`, by the place in the stream (R123). -/
theorem AwaitsDraw.succ_registers {cfg : Config} {x : Word} {n : Nat} {s : State} (h : AwaitsDraw cfg x (n + 1) s) :
    s.index.val = n % 624 + 1 ∧ s.words = generation cfg x (n / 624 + 1) := by
  obtain ⟨-, k, hw, place, pos⟩ := h
  have le : s.index.val ≤ 624 := Nat.le_of_lt_succ s.index.isLt
  obtain rfl : k = n / 624 + 1 := by omega
  exact ⟨by omega, hw⟩

/-- The draw's answer, with its one transfer (R111, R123). -/
theorem extract_transfers_of_awaitsDraw {cfg : Config} {x : Word} {n : Nat} {s : State} (h : AwaitsDraw cfg x n s) :
    (extract cfg s).transfers = s.transfers ++ [.rsp (okResponse (drawOf cfg x n))] := by
  have answered := (extract_of_awaitsDraw h).2
  rcases extract_transfers_cases cfg s with ⟨un, -⟩ | ⟨-, p, -, ht⟩
  · exact absurd (h.seeded.symm.trans un) Bool.noConfusion
  · rw [rsps_of_answer ht, List.append_cancel_left_eq, List.singleton_inj] at answered
    rw [ht, answered]
    rfl

/-- Settles O30: the commands after the `SEED` lead to the place of the draw (`AwaitsDraw.performAll`), which fixes what the draw
answers and leaves. -/
theorem drawStreamClosedForm : Obligations.DrawStreamClosedForm := by
  refine ⟨fun is s => by rw [execAll_eq_execAllIn], fun cfg x is s his => ?_⟩
  have before := (seed_awaitsDraw cfg x s).performAll his
  rw [Nat.zero_add] at before
  have run : performAll cfg (.seed x :: is ++ [.extract]) s = extract cfg (performAll cfg is (seed x s)) :=
    performAll_append cfg (.seed x :: is) [.extract] s
  refine ⟨performAll cfg is (seed x s), extract cfg (performAll cfg is (seed x s)), execAllIn_eq_performAll cfg _ s,
    (execAllIn_eq_performAll cfg _ s).trans (congrArg Host.Outcome.next run), ?_⟩
  obtain ⟨index, words⟩ := (extract_of_awaitsDraw before).1.succ_registers
  have transfers := extract_transfers_of_awaitsDraw before
  generalize is.count .extract = n at *
  have ceil : (n + 1 + 623) / 624 = n / 624 + 1 := by omega
  have position : posOf (n % 624) = posOf n := Fin.ext (Nat.mod_mod n 624)
  simp only [ceil, Nat.add_sub_cancel, position]
  exact ⟨transfers, index, words⟩

/-! What does not depend on the tempering shift. -/

/-- The twist reads of a configuration its coefficient alone (R6, R112). -/
theorem twistVec_congr {cfg cfg' : Config} (h : cfg.aCoeff = cfg'.aCoeff) (v : StateVec) :
    twistVec cfg v = twistVec cfg' v := by
  have step (v : StateVec) (i : Pos) : twistStep cfg v i = twistStep cfg' v i := by
    simp only [twistStep, mag, h]
  have loop (n : Nat) : twistLoop cfg v n = twistLoop cfg' v n := by
    induction n with
    | zero => rfl
    | succ n ih => rw [twistLoop, twistLoop, ih, step]
  unfold twistVec
  exact loop 624

theorem SameMt.symm {s s' : State} (h : SameMt s s') : SameMt s' s := ⟨h.words.symm, h.index.symm, h.seeded.symm⟩

theorem SameMt.trans {s s' s'' : State} (h : SameMt s s') (h' : SameMt s' s'') : SameMt s s'' :=
  ⟨h.words.trans h'.words, h.index.trans h'.index, h.seeded.trans h'.seeded⟩

/-- The two states agree in all but the responses and the model's own counters. -/
structure SameButResponses (s s' : State) : Prop where
  mt : SameMt s s'
  pend : s.pend = s'.pend
  dout : s.dout = s'.dout

/-- A draw's effect on the MT unit does not depend on the tempering shift: tempering is not written back (R111, R113). -/
theorem extract_sameMt_of_aCoeff {cfg cfg' : Config} (h : cfg.aCoeff = cfg'.aCoeff) {s s' : State} (same : SameMt s s') :
    SameMt (extract cfg s) (extract cfg' s') := by
  obtain ⟨hw, hi, hs⟩ := same
  rcases extract_cases cfg s with ⟨un, he⟩ | ⟨sd, exhausted, he⟩ | ⟨sd, within, he⟩
  · rw [he, extract_unseeded cfg' (hs ▸ un)]
    exact ⟨hw, hi, hs⟩
  · rw [he, extract_exhausted cfg' (hs ▸ sd) (hi ▸ exhausted)]
    exact ⟨(twistVec_congr h s.words).trans (congrArg (twistVec cfg') hw), rfl, hs⟩
  · rw [he, extract_within cfg' (hs ▸ sd) (hi ▸ within)]
    exact ⟨hw, by simp [hi], hs⟩

/-- Nor does the effect of any command on all but the responses. -/
theorem perform_sameButResponses {cfg cfg' : Config} (h : cfg.aCoeff = cfg'.aCoeff) (i : Instr) {s s' : State}
    (same : SameButResponses s s') : SameButResponses (perform cfg i s) (perform cfg' i s') := by
  obtain ⟨mt, pend, dout⟩ := same
  have vn {i : Instr} (hi : isMt i = false) : SameMt (perform cfg i s) (perform cfg' i s') :=
    ((perform_vn_sameMt cfg hi s).symm.trans mt).trans (perform_vn_sameMt cfg' hi s')
  cases i with
  | seed x => exact ⟨seed_sameMt x s s', pend, by simpa [perform] using dout⟩
  | extract =>
    obtain ⟨pend₁, dout₁⟩ := extract_vn_frame cfg s
    obtain ⟨pend₂, dout₂⟩ := extract_vn_frame cfg' s'
    exact ⟨extract_sameMt_of_aCoeff h mt, (pend₁.trans pend).trans pend₂.symm, (dout₁.trans dout).trans dout₂.symm⟩
  | dbit b => exact ⟨vn rfl, by simp [perform, pend], by simp [perform, pend, dout]⟩
  | dsep => exact ⟨vn rfl, rfl, by simp [perform, dout]⟩
  | dend => exact ⟨vn rfl, rfl, by simp [perform, dout]⟩

/-- Nor does the effect of a whole sequence. -/
theorem performAll_sameButResponses {cfg cfg' : Config} (h : cfg.aCoeff = cfg'.aCoeff) (is : List Instr) {s s' : State}
    (same : SameButResponses s s') : SameButResponses (performAll cfg is s) (performAll cfg' is s') := by
  induction is generalizing s s' with
  | nil => exact same
  | cons i is ih => exact ih (perform_sameButResponses h i same)

/-- Settles O32, by induction on the sequence, which starts from one state under both configurations. -/
theorem stateIndependentOfTemperShift : Obligations.StateIndependentOfTemperShift := by
  intro cfg cfg' is s h
  obtain ⟨⟨hw, hi, hs⟩, pend, dout⟩ := performAll_sameButResponses h is (s := s) ⟨⟨rfl, rfl, rfl⟩, rfl, rfl⟩
  exact ⟨hw.symm, hi.symm, hs.symm, pend.symm, dout.symm⟩

end Sys2Proof.Machine
end

