-- ==== Sys2Proof/Proofs/MtArithmetic.lean ====
section
/-! SUPPORT. The twist by operand age, its fixed point, and what it does not read; the arithmetic of seeding; tempering on integers
and in a 32-bit datapath, and its steps as bijections (spec/20_memory.md R52; spec/40_mt_core.md R112, R113, R115, R117, R122). -/

namespace Sys2Proof.Machine

/-- Settles O27: the two index forms are sums modulo 624, which wrap at most once. -/
theorem indexFormsWrap : Obligations.IndexFormsWrap := by
  intro i
  have := i.isLt
  rw [offsetPos_val, nextPos_val]
  constructor
  · split <;> omega
  · split <;> omega

/-! Operand age. -/

/-- A word already rewritten when iteration `n` runs has its final value (R59, R112). -/
theorem readWord_twistLoop_rewritten (cfg : Config) (v : StateVec) {n : Nat} (j : Pos) (hj : j.val < n) (hn : n ≤ 624) :
    readWord (twistLoop cfg v n) j = readWord (twistVec cfg v) j := by
  unfold twistVec
  exact (readWord_twistLoop_stable cfg v j hj hn (Nat.le_refl 624)).symm

/-- `mag` as R122 writes it. -/
theorem mag_eq (cfg : Config) (x : Word) :
    mag cfg x = (x >>> 1) ^^^ (if x.toNat % 2 = 1 then cfg.aCoeff else 0#32) := by
  have odd : isOdd x = decide (x.toNat % 2 = 1) := by rw [isOdd, BitVec.getLsbD, Nat.testBit_zero]
  simp only [mag, odd, decide_eq_true_eq]
  split
  · rfl
  · rw [BitVec.xor_zero]

/-- Up to position 226 every operand is old (R122). -/
theorem readWord_twistVec_early (cfg : Config) (v : StateVec) (i : Nat) (h : i ≤ 226) :
    readWord (twistVec cfg v) ⟨i, by omega⟩ =
      readWord v ⟨i + 397, by omega⟩ ^^^ mag cfg (mix (readWord v ⟨i, by omega⟩) (readWord v ⟨i + 1, by omega⟩)) := by
  have offset : offsetPos ⟨i, by omega⟩ = ⟨i + 397, by omega⟩ := Fin.ext (show (i + 397) % 624 = i + 397 by omega)
  have next : nextPos ⟨i, by omega⟩ = ⟨i + 1, by omega⟩ := Fin.ext (show (i + 1) % 624 = i + 1 by omega)
  rw [readWord_twistVec, offset, next, readWord_twistLoop_above cfg v ⟨i + 397, by omega⟩ (Nat.le_add_right i 397),
    readWord_twistLoop_above cfg v ⟨i + 1, by omega⟩ (Nat.le_succ i)]

/-- From position 227 on the offset operand is new (R122). -/
theorem readWord_twistVec_late (cfg : Config) (v : StateVec) (i : Nat) (h : 227 ≤ i) (h' : i ≤ 622) :
    readWord (twistVec cfg v) ⟨i, by omega⟩ =
      readWord (twistVec cfg v) ⟨i - 227, by omega⟩ ^^^
        mag cfg (mix (readWord v ⟨i, by omega⟩) (readWord v ⟨i + 1, by omega⟩)) := by
  have offset : offsetPos ⟨i, by omega⟩ = ⟨i - 227, by omega⟩ := Fin.ext (show (i + 397) % 624 = i - 227 by omega)
  have next : nextPos ⟨i, by omega⟩ = ⟨i + 1, by omega⟩ := Fin.ext (show (i + 1) % 624 = i + 1 by omega)
  rw [readWord_twistVec, offset, next, readWord_twistLoop_above cfg v ⟨i + 1, by omega⟩ (Nat.le_succ i),
    readWord_twistLoop_rewritten cfg v ⟨i - 227, by omega⟩ (Nat.sub_lt (by omega) (by decide)) (by omega)]

/-- At the last position the next word is new as well (R122). -/
theorem readWord_twistVec_last (cfg : Config) (v : StateVec) :
    readWord (twistVec cfg v) 623 =
      readWord (twistVec cfg v) 396 ^^^ mag cfg (mix (readWord v 623) (readWord (twistVec cfg v) 0)) := by
  have offset : offsetPos 623 = 396 := rfl
  have next : nextPos 623 = 0 := rfl
  rw [readWord_twistVec, offset, next, readWord_twistLoop_rewritten cfg v 396 (by decide) (by decide),
    readWord_twistLoop_rewritten cfg v 0 (by decide) (by decide)]

/-- The twist is the relation of R122. -/
theorem byOperandAge_twistVec (cfg : Config) (old : StateVec) : ByOperandAge cfg old (twistVec cfg old) := by
  simp only [ByOperandAge, ← mag_eq]
  exact ⟨readWord_twistVec_early cfg old, readWord_twistVec_late cfg old, readWord_twistVec_last cfg old⟩

/-! The all-zero vector. -/

@[simp] theorem mag_mix_zero (cfg : Config) : mag cfg (mix 0#32 0#32) = 0#32 := rfl

/-- Writing the word that is there changes nothing. -/
theorem writeWord_readWord (v : StateVec) (i : Pos) : writeWord v i (readWord v i) = v :=
  stateVec_ext fun j => by
    rw [readWord_writeWord]
    split
    · next h => rw [h]
    · rfl

/-- Every iteration writes a zero over a zero. -/
theorem twistLoop_zero (cfg : Config) (n : Nat) :
    twistLoop cfg (Vector.replicate 624 0#32) n = Vector.replicate 624 0#32 := by
  induction n with
  | zero => rfl
  | succ n ih =>
    have same := writeWord_readWord (Vector.replicate 624 0#32) (posOf n)
    rw [readWord_replicate] at same
    rw [twistLoop, ih, twistStep]
    simp only [readWord_replicate, mag_mix_zero, BitVec.xor_zero]
    exact same

/-- The all-zero vector is a fixed point of the twist (R112 (c)). -/
theorem twistVec_zero (cfg : Config) : twistVec cfg (Vector.replicate 624 0#32) = Vector.replicate 624 0#32 := by
  unfold twistVec
  exact twistLoop_zero cfg 624

/-- Of a zero word the seeding loop makes the iteration's number, and so a word 0 that is 0 is followed by a 1 (R110). -/
theorem seedVec_ne_zero (v : StateVec) (x : Word) : seedVec v x ≠ Vector.replicate 624 0#32 := by
  intro h
  have succ := readWord_seedVec_succ v x (i := 0) (by decide)
  rw [h, readWord_replicate, readWord_replicate] at succ
  exact absurd succ (by decide)

/-- Settles O25: `twistVec_zero` and `seedVec_ne_zero`. -/
theorem zeroVectorFixedAndNeverSeeded : Obligations.ZeroVectorFixedAndNeverSeeded := ⟨twistVec_zero, seedVec_ne_zero⟩

/-! The double-buffered twist differs. -/

/-- The vector that is 1 at position 397, the offset operand of position 0, and 0 elsewhere. -/
def oneAtOffset : StateVec := writeWord (Vector.replicate 624 0#32) 397 1#32

theorem readWord_oneAtOffset (i : Pos) : readWord oneAtOffset i = if 397 = i then 1#32 else 0#32 := by
  rw [oneAtOffset, readWord_writeWord, readWord_replicate]

/-- Its word 0 becomes 1, so position 227 reads another word than the old one (R122). -/
theorem twistVec_oneAtOffset_ne (cfg : Config) :
    readWord (twistVec cfg oneAtOffset) 227 ≠
      readWord oneAtOffset (offsetPos 227) ^^^
        mag cfg (mix (readWord oneAtOffset 227) (readWord oneAtOffset (nextPos 227))) := by
  have operands : readWord oneAtOffset 0 = 0#32 ∧ readWord oneAtOffset 1 = 0#32 ∧ readWord oneAtOffset 397 = 1#32 := by
    simp only [readWord_oneAtOffset]
    decide
  obtain ⟨word0, word1, word397⟩ := operands
  have first : readWord (twistVec cfg oneAtOffset) 0 = 1#32 := by
    have early : _ = readWord oneAtOffset 397 ^^^ mag cfg (mix (readWord oneAtOffset 0) (readWord oneAtOffset 1)) :=
      readWord_twistVec_early cfg oneAtOffset 0 (by decide)
    rw [word0, word1, word397, mag_mix_zero] at early
    exact early
  have late : readWord (twistVec cfg oneAtOffset) 227 = readWord (twistVec cfg oneAtOffset) 0 ^^^
      mag cfg (mix (readWord oneAtOffset 227) (readWord oneAtOffset (nextPos 227))) :=
    readWord_twistVec_late cfg oneAtOffset 227 (by decide) (by decide)
  have offset : offsetPos 227 = 0 := rfl
  rw [late, offset, first, word0]
  exact fun h => absurd ((BitVec.xor_left_inj _).mp h) (by decide)

/-- Settles O24: `byOperandAge_twistVec`, and `oneAtOffset` at position 227 for the difference. -/
theorem twistByOperandAge : Obligations.TwistByOperandAge :=
  ⟨byOperandAge_twistVec, fun cfg => ⟨oneAtOffset, 227, by decide, twistVec_oneAtOffset_ne cfg⟩⟩

/-! What the twist does not read. -/

/-- `mix` reads bit 31 of its first operand and no other (R112, R122). -/
theorem mix_congr {u u' : Word} (h : u.getLsbD 31 = u'.getLsbD 31) (v : Word) : mix u v = mix u' v := by
  have upper (w : Word) : w &&& upperMask = if w.getLsbD 31 then upperMask else 0#32 := by
    have mask : upperMask = BitVec.twoPow 32 31 := rfl
    rw [mask, BitVec.and_twoPow]
  rw [mix, mix, upper u, upper u', h]

/-- Of two writes to one position the later one stands. -/
theorem writeWord_writeWord (v : StateVec) (i : Pos) (w w' : Word) : writeWord (writeWord v i w) i w' = writeWord v i w' :=
  stateVec_ext fun j => by
    rw [readWord_writeWord, readWord_writeWord, readWord_writeWord]
    split <;> rfl

/-- Iteration 0 reads bit 31 of word 0 and rewrites it, so the later iterations find the same vector (R112 (d)). -/
theorem twistLoop_writeWord_zero (cfg : Config) (v : StateVec) {x : Word}
    (h : x.getLsbD 31 = (readWord v 0).getLsbD 31) (n : Nat) :
    twistLoop cfg (writeWord v 0 x) (n + 1) = twistLoop cfg v (n + 1) := by
  induction n with
  | zero =>
    have start : posOf 0 = 0 := rfl
    have offset : readWord (writeWord v 0 x) (offsetPos 0) = readWord v (offsetPos 0) :=
      readWord_writeWord_ne v x (by decide)
    have next : readWord (writeWord v 0 x) (nextPos 0) = readWord v (nextPos 0) := readWord_writeWord_ne v x (by decide)
    show twistStep cfg (writeWord v 0 x) (posOf 0) = twistStep cfg v (posOf 0)
    rw [start, twistStep, twistStep, offset, next, readWord_writeWord_self, writeWord_writeWord, mix_congr h]
  | succ n ih => rw [twistLoop, ih, ← twistLoop]

/-- Settles O26: after the first iteration the two loops agree (`twistLoop_writeWord_zero`). -/
theorem twistIgnoresLowBitsOfWordZero : Obligations.TwistIgnoresLowBitsOfWordZero := by
  intro cfg v x h
  unfold twistVec
  exact twistLoop_writeWord_zero cfg v h 623

/-! Seeding. -/

/-- Settles O18: `low32` is a homomorphism, and the product is below 2^31 times 2^32. -/
theorem seedArithmeticWraps : Obligations.SeedArithmeticWraps := by
  intro t i _ _
  have := t.isLt
  refine ⟨?_, by omega⟩
  rw [low32, BitVec.ofNat_add, BitVec.ofNat_mul, BitVec.ofNat_toNat, BitVec.setWidth_eq]

/-! Tempering: the lossless shift under a mask. -/

/-- The masked shift is the exact number: the mask keeps it below 2^32 (R117). -/
theorem shlAnd_toNat (y : Word) (k : Nat) (m : Word) : (shlAnd y k m).toNat = (y.toNat <<< k) &&& m.toNat := by
  rw [shlAnd, low32, BitVec.toNat_ofNat, Nat.mod_eq_of_lt (Nat.and_lt_two_pow _ m.isLt)]

/-- A 32-bit shift drops only bits that the mask drops (R117). -/
theorem shlAnd_eq (y : Word) (k : Nat) (m : Word) : shlAnd y k m = (y <<< k) &&& m := by
  apply BitVec.eq_of_toNat_eq
  rw [shlAnd, low32, BitVec.toNat_ofNat, Nat.and_mod_two_pow, BitVec.toNat_and, BitVec.toNat_shiftLeft,
    Nat.mod_eq_of_lt m.isLt]

/-! Tempering: the steps as numbers. -/

theorem temper1_toNat (y : Word) : (temper1 y).toNat = y.toNat ^^^ (y.toNat >>> 11) := rfl

theorem temper2_toNat (cfg : Config) (y : Word) :
    (temper2 cfg y).toNat = y.toNat ^^^ ((y.toNat <<< cfg.temperS) &&& 0x9D2C5680) := by
  rw [temper2, BitVec.toNat_xor, shlAnd_toNat]
  rfl

theorem temper3_toNat (y : Word) : (temper3 y).toNat = y.toNat ^^^ ((y.toNat <<< 15) &&& 0xEFC60000) := by
  rw [temper3, BitVec.toNat_xor, shlAnd_toNat]
  rfl

theorem temper4_toNat (y : Word) : (temper4 y).toNat = y.toNat ^^^ (y.toNat >>> 18) := rfl

/-- Settles O28: each exact step is the number of a word, and each masked shift is the datapath's (`shlAnd_eq`). -/
theorem temperExact : Obligations.TemperExact := by
  intro cfg y
  simp only [← temper1_toNat, ← temper2_toNat, ← temper3_toNat, ← temper4_toNat]
  refine ⟨BitVec.isLt _, BitVec.isLt _, BitVec.isLt _, BitVec.isLt _, rfl, ?_⟩
  simp only [temper, temper4, temper3, temper2, temper1, shlAnd_eq]
  rfl

/-! Tempering: the steps as bijections. -/

/-- `y XOR g(y)` determines `y` if `g` is linear and has no fixed point but 0: the difference of two words with one image is a
fixed point. -/
theorem injective_xor_linear {g : Word → Word} (linear : ∀ a b, g (a ^^^ b) = g a ^^^ g b)
    (fixed : ∀ d, d = g d → d = 0#32) : Function.Injective fun y => y ^^^ g y := by
  intro a b h
  have diff : a ^^^ b = g (a ^^^ b) := by
    have h' : a ^^^ g a = b ^^^ g b := h
    have ga : g a = a ^^^ (b ^^^ g b) := by rw [← h', ← BitVec.xor_assoc, BitVec.xor_self, BitVec.zero_xor]
    rw [linear, ga, BitVec.xor_assoc, BitVec.xor_assoc, BitVec.xor_self, BitVec.xor_zero]
  exact BitVec.xor_eq_zero_iff.mp (fixed _ diff)

/-- A right shift makes every word but 0 smaller. -/
theorem injective_xor_ushiftRight {k : Nat} (hk : 0 < k) : Function.Injective fun y : Word => y ^^^ (y >>> k) := by
  refine injective_xor_linear (fun a b => BitVec.ushiftRight_xor_distrib a b k) fun d hd => ?_
  have quotient : d.toNat = d.toNat / 2 ^ k := by
    conv_lhs => rw [hd]
    rw [BitVec.toNat_ushiftRight, Nat.shiftRight_eq_div_pow]
  by_contra nonzero
  have pos : 0 < d.toNat := Nat.pos_of_ne_zero fun h => nonzero (BitVec.eq_of_toNat_eq h)
  exact absurd quotient.symm (Nat.ne_of_lt (Nat.div_lt_self pos (Nat.one_lt_two_pow (Nat.ne_of_gt hk))))

/-- Under a left shift each bit follows from a lower one, so from the lowest up they are all 0. -/
theorem injective_xor_shlAnd {k : Nat} (hk : 0 < k) (m : Word) : Function.Injective fun y => y ^^^ shlAnd y k m := by
  refine injective_xor_linear (fun a b => ?_) fun d hd => ?_
  · rw [shlAnd_eq, shlAnd_eq, shlAnd_eq, BitVec.shiftLeft_xor_distrib]
    ext i
    simp [Bool.and_xor_distrib_right]
  · rw [shlAnd_eq] at hd
    have bit (i : Nat) : d.getLsbD i = false := by
      induction i using Nat.strong_induction_on with
      | _ i ih =>
        rw [hd, BitVec.getLsbD_and, BitVec.getLsbD_shiftLeft]
        by_cases low : i < k
        · simp [low]
        · simp [ih (i - k) (by omega)]
    exact BitVec.eq_of_getLsbD_eq fun i _ => by rw [bit, BitVec.getLsbD_zero]

/-- Tempering with a shift in step 2 is one-to-one, step by step (R113 (c)). -/
theorem temper_injective {cfg : Config} (h : 0 < cfg.temperS) : Function.Injective (temper cfg) := by
  have step1 : Function.Injective temper1 := injective_xor_ushiftRight (by decide)
  have step2 : Function.Injective (temper2 cfg) := injective_xor_shlAnd h temperB
  have step3 : Function.Injective temper3 := injective_xor_shlAnd (by decide) temperC
  have step4 : Function.Injective temper4 := injective_xor_ushiftRight (by decide)
  exact step4.comp (step3.comp (step2.comp step1))

theorem temper_zero (cfg : Config) : temper cfg 0#32 = 0#32 := by
  have step2 : temper2 cfg 0#32 = 0#32 := by rw [temper2, shlAnd_eq, BitVec.zero_shiftLeft]; rfl
  have step1 : temper1 0#32 = 0#32 := rfl
  rw [temper, step1, step2]
  rfl

/-- Settles O29: a one-to-one map of the finitely many words is onto; the admitted shifts are not 0. -/
theorem temperBijective : Obligations.TemperBijective := by
  rintro cfg ⟨-, shift⟩
  have pos : 0 < cfg.temperS := by omega
  exact ⟨Finite.injective_iff_bijective.mp (temper_injective pos), temper_zero cfg⟩

end Sys2Proof.Machine
end

