-- ==== Sys2Proof/Proofs/Debias.lean ====
section
/-! SUPPORT. `debias` on whole strings: its separators, its length, its edge cases, and its agreement with the VN unit
(spec/41_debiaser.md R153 to R157, R159; spec/42_host_conventions.md R186). -/

namespace Sys2Proof.Machine

/-! Lines and their joining. -/

theorem splitLines_ne_nil (str : List Ch) : splitLines str ≠ [] := by
  obtain ⟨l, ls, h⟩ := splitLines_bits_append str
  have first : splitLines str = l :: ls := h []
  rw [first]
  exact List.cons_ne_nil l ls

/-- A separator in the middle separates the lines before it from those after it (R153, step (1)). -/
theorem splitLines_append_sep (a b : List Ch) : splitLines (a ++ .sep :: b) = splitLines a ++ splitLines b := by
  induction a with
  | nil => rfl
  | cons c a ih =>
    cases c with
    | sep => exact congrArg ([] :: ·) ih
    | bit x =>
      obtain ⟨l, ls, h⟩ := splitLines_bits_append a
      have line : splitLines a = l :: ls := h []
      rw [line] at ih
      have later : splitLines (a ++ .sep :: b) = l :: (ls ++ splitLines b) := ih
      rw [List.cons_append, splitLines, later, splitLines, line]
      rfl

/-- Two groups of lines are joined by one separator (R153, step (5)). -/
theorem joinLines_append_lines {ks ls : List (List Bool)} (hk : ks ≠ []) (hl : ls ≠ []) :
    joinLines (ks ++ ls) = joinLines ks ++ .sep :: joinLines ls := by
  induction ks with
  | nil => exact absurd rfl hk
  | cons k ks ih =>
    cases ks with
    | nil =>
      obtain ⟨l, ls, rfl⟩ := List.exists_cons_of_ne_nil hl
      rfl
    | cons k' ks =>
      have later := ih (List.cons_ne_nil k' ks)
      rw [List.cons_append] at later
      rw [List.cons_append, List.cons_append, joinLines, later, joinLines, List.append_assoc, List.cons_append]

/-- The two sides of a separator are filtered each by itself, and it is kept (R153, R156). -/
theorem debias_append_sep (a b : List Ch) : debias (a ++ .sep :: b) = debias a ++ .sep :: debias b := by
  rw [debias, splitLines_append_sep, List.map_append, joinLines_append_lines, debias, debias]
  · exact mt List.map_eq_nil_iff.mp (splitLines_ne_nil a)
  · exact mt List.map_eq_nil_iff.mp (splitLines_ne_nil b)

@[simp] theorem debias_nil : debias [] = [] := rfl

/-- Joined lines have a separator between each two (R153, step (5)). -/
theorem count_sep_joinLines_cons (l : List Bool) (ls : List (List Bool)) :
    (joinLines (l :: ls)).count .sep = ls.length := by
  have bits (l : List Bool) : (l.map Ch.bit).count .sep = 0 := List.count_eq_zero.mpr (by simp)
  induction ls generalizing l with
  | nil => exact bits l
  | cons m ls ih => rw [joinLines, List.count_append, bits, List.count_cons_self, ih, Nat.zero_add, List.length_cons]

/-- There is one line more than separators (R153, step (1)). -/
theorem length_splitLines (str : List Ch) : (splitLines str).length = str.count .sep + 1 := by
  induction str with
  | nil => rfl
  | cons c r ih =>
    cases c with
    | sep => rw [splitLines, List.length_cons, ih, List.count_cons_self]
    | bit b =>
      obtain ⟨l, ls, h⟩ := splitLines_bits_append r
      have line : splitLines r = l :: ls := h []
      rw [line] at ih
      rw [splitLines, line, List.count_cons_of_ne (by simp)]
      exact ih

/-- Settles O42: one separator fewer than lines on both sides, and as many lines out as in. -/
theorem debiasKeepsSeparators : Obligations.DebiasKeepsSeparators := by
  intro str
  obtain ⟨l, ls, h⟩ := splitLines_bits_append str
  have line : splitLines str = l :: ls := h []
  have lines := length_splitLines str
  rw [line, List.length_cons, Nat.add_right_cancel_iff] at lines
  rw [debias, line, List.map_cons, count_sep_joinLines_cons, List.length_map, lines]

/-! One line. -/

/-- A pair has at most one output character (R153, step (3)). -/
theorem length_mapPair_le (p : Bool × Bool) : (mapPair p).length ≤ 1 := by
  obtain ⟨a, b⟩ := p
  cases a <;> cases b <;> decide

theorem mapPair_of_eq {p : Bool × Bool} (h : p.1 = p.2) : mapPair p = [] := by
  obtain ⟨a, b⟩ := p
  obtain rfl : a = b := h
  cases a <;> rfl

/-- A line has half as many pairs as characters, rounded down (R153, step (2)). -/
theorem length_pairsOf (l : List Bool) : (pairsOf l).length = l.length / 2 := by
  induction l using pairsOf.induct with
  | case1 a b r ih => rw [pairsOf, List.length_cons, ih, List.length_cons, List.length_cons, Nat.add_div_right _ Nat.two_pos]
  | case2 a => rw [pairsOf, List.length_nil, List.length_singleton]
  | case3 => rfl

/-- The output of a line is at most half as long (R159). -/
theorem length_debiasLine_le (l : List Bool) : (debiasLine l).length ≤ l.length / 2 := by
  rw [debiasLine, List.length_flatMap, ← length_pairsOf, ← Nat.mul_one (pairsOf l).length,
    ← List.length_map (f := fun p => (mapPair p).length)]
  refine List.sum_le_card_nsmul _ 1 fun n hn => ?_
  obtain ⟨p, -, rfl⟩ := List.mem_map.mp hn
  exact length_mapPair_le p

/-- A character after whole pairs has no partner (R153, step (2)). -/
theorem pairsOf_concat_of_even {l : List Bool} (h : l.length % 2 = 0) (b : Bool) : pairsOf (l ++ [b]) = pairsOf l := by
  induction l using pairsOf.induct with
  | case1 x y r ih =>
    have even : r.length % 2 = 0 := (Nat.add_mod_right r.length 2).symm.trans h
    rw [List.cons_append, List.cons_append, pairsOf, ih even, pairsOf]
  | case2 a => cases h
  | case3 => rfl

/-- A line of equal pairs has no output (R157 (a)). -/
theorem debiasLine_of_equal_pairs {l : List Bool} (h : ∀ p ∈ pairsOf l, p.1 = p.2) : debiasLine l = [] :=
  List.flatMap_eq_nil_iff.mpr fun p hp => mapPair_of_eq (h p hp)

/-- Settles O40: (a) to (d) and the bound are about one line (`debias_bits`), (e) and (f) about a separator
(`debias_append_sep`). -/
theorem debiasEdgeCases : Obligations.DebiasEdgeCases := by
  have trailing (str : List Ch) : debias (str ++ [.sep]) = debias str ++ [.sep] := debias_append_sep str []
  refine ⟨fun l h => ?_, rfl, fun b => debias_bits [b], fun l b h => ?_, trailing, ?_, fun a b => ?_, trailing [.sep],
    fun l => ?_⟩
  · rw [debias_bits, debiasLine_of_equal_pairs h, List.map_nil]
  · rw [debias_bits, debias_bits, debiasLine, pairsOf_concat_of_even h, debiasLine]
  · calc debias ([false, true, false, true].map .bit ++ [.sep])
      _ = debias ([false, true, false, true].map .bit) ++ [.sep] := trailing _
      _ = [.bit false, .bit false] ++ [.sep] := by
        rw [debias_bits]
        rfl
  · rw [debias_append_sep, show .sep :: b = [] ++ .sep :: b from rfl, debias_append_sep, debias_nil]
    rfl
  · rw [debias_bits, List.length_map]
    exact length_debiasLine_le l

/-! Streaming. -/

/-- A VN command is answered `OK`, 0 (R89). -/
theorem performAll_vn_rsps (cfg : Config) {is : List Instr} (h : ∀ i ∈ is, isMt i = false) (s : State) :
    (performAll cfg is s).rsps = s.rsps ++ List.replicate is.length (okResponse 0#32) := by
  induction is generalizing s with
  | nil => exact (List.append_nil _).symm
  | cons i is ih =>
    obtain ⟨vn, later⟩ := List.forall_mem_cons.mp h
    have other : i ≠ .extract := by
      rintro rfl
      exact Bool.noConfusion vn
    rw [performAll, ih later, perform_rsps_of_ne_extract cfg other, List.append_assoc, List.length_cons,
      List.replicate_succ, List.singleton_append]

/-- VN commands leave the MT unit alone (R62). -/
theorem performAll_vn_sameMt (cfg : Config) {is : List Instr} (h : ∀ i ∈ is, isMt i = false) (s : State) :
    SameMt s (performAll cfg is s) := by
  induction is generalizing s with
  | nil => exact ⟨rfl, rfl, rfl⟩
  | cons i is ih =>
    obtain ⟨vn, later⟩ := List.forall_mem_cons.mp h
    exact (perform_vn_sameMt cfg vn s).trans (ih later (perform cfg i s))

theorem isMt_of_mem_enc {str : List Ch} {i : Instr} (h : i ∈ enc str) : isMt i = false := by
  rcases List.mem_append.mp h with letter | last
  · obtain ⟨c, -, rfl⟩ := List.mem_map.mp letter
    cases c <;> rfl
  · obtain rfl := List.mem_singleton.mp last
    rfl

@[simp] theorem length_enc (str : List Ch) : (enc str).length = str.length + 1 := by simp [enc]

/-- Streaming a string from an empty latch emits its `debias` (R155). -/
theorem performAll_enc_dout_of_none (cfg : Config) (str : List Ch) {s : State} (h : s.pend = .none) :
    (performAll cfg (enc str) s).dout.map symbolCh = s.dout.map symbolCh ++ debias str := by
  rw [performAll_enc_dout, h, Pend.arrived_none, List.map_nil, List.nil_append]

/-- Settles O38: the symbols are `performAll_enc_dout_of_none`, and `enc` holds VN commands only. -/
theorem streamingEqualsDebias : Obligations.StreamingEqualsDebias := by
  intro str s h
  have vn : ∀ i ∈ enc str, isMt i = false := fun _ => isMt_of_mem_enc
  obtain ⟨hw, hi, hs⟩ := performAll_vn_sameMt hardware vn s
  refine ⟨_, execAll_eq_performAll (enc str) s, performAll_enc_dout_of_none hardware str h,
    performAll_enc_pend hardware str s, hw.symm, hi.symm, hs.symm, ?_⟩
  rw [performAll_vn_rsps hardware vn, length_enc]

/-- Settles O39: the first string's `DEND` leaves the latch empty, from which the second is streamed. -/
theorem closedStringsAreIndependent : Obligations.ClosedStringsAreIndependent := by
  intro a b s h
  have empty := performAll_enc_pend hardware a s
  refine ⟨_, execAll_eq_performAll (enc a ++ enc b) s, ?_, ?_⟩
  · rw [performAll_append, performAll_enc_dout_of_none hardware b empty, performAll_enc_dout_of_none hardware a h]
  · rw [performAll_append]
    exact performAll_enc_pend hardware b _

/-! Renderings. -/

/-- The pairs of a rendering: characters `2j` and `2j + 1` are bits `31 - 2j` and `30 - 2j` (R182, R186). -/
theorem pairsOf_render32 (v : Word) : pairsOf (render32 v) =
    (List.range 16).map fun j => (v.getLsbD (31 - 2 * j), v.getLsbD (30 - 2 * j)) := rfl

/-- Settles O55: `pairsOf_render32`, the bound of half the length at 32 characters, and `debias_renderSeq`. -/
theorem pairsNeverStraddleValues : Obligations.PairsNeverStraddleValues := by
  refine ⟨pairsOf_render32, fun v => ?_, debias_renderSeq⟩
  have half := length_debiasLine_le (render32 v)
  rwa [render32_length] at half

end Sys2Proof.Machine
end
